-- ==== Sys2Proof/Word.lean ====
section
/-! DEFINITION. The word types of the machine (spec/00_scope.md R4, R6): every value is an unsigned integer of a stated
width or a boolean. -/

namespace Sys2Proof

/-- An 8-bit value: a general register, a timer, a byte of memory, the immediate `KK` (R4 `XLEN`). -/
abbrev Byte := BitVec 8

/-- A 16-bit value: an instruction word, `PC`, `I`, a stack slot (R4 `PC_BITS`, `I_BITS`, R90). -/
abbrev Word := BitVec 16

/-- A 12-bit immediate address `NNN` (R93). -/
abbrev Addr := BitVec 12

/-- A register index: the 4-bit field `X` or `Y`; every value is legal (R21, R93). -/
abbrev Reg := Fin 16

/-- `VF`, the flags register (R22). -/
abbrev VF : Reg := 15

/-- `zext_16(NNN)` (R6, R93). -/
abbrev zext16 (a : Addr) : Word := a.setWidth 16

end Sys2Proof
end

