-- ==== Sys2Proof/Syntax.lean ====
section
/-! DEFINITION. The instructions: one constructor for each of the 35 rows of spec/opcode_table.json (R96 and the
fall-through row of R100). -/

namespace Sys2Proof

/-- An instruction with its operand fields (R91, R92). The comment of a constructor gives its pattern in R96. -/
inductive Instr where
  /-- `00E0` CLS (R181). -/
  | cls
  /-- `00EE` RET (R134). -/
  | ret
  /-- `1NNN` JP (R132). -/
  | jp (nnn : Addr)
  /-- `2NNN` CALL (R133). -/
  | call (nnn : Addr)
  /-- `3XKK` SE_IMM (R140). -/
  | seImm (x : Reg) (kk : Byte)
  /-- `4XKK` SNE_IMM (R141). -/
  | sneImm (x : Reg) (kk : Byte)
  /-- `5XY0` SE_REG (R142). -/
  | seReg (x y : Reg)
  /-- `6XKK` LD_IMM (R150). -/
  | ldImm (x : Reg) (kk : Byte)
  /-- `7XKK` ADD_IMM (R151). -/
  | addImm (x : Reg) (kk : Byte)
  /-- `8XY0` LD_REG (R152). -/
  | ldReg (x y : Reg)
  /-- `8XY1` OR (R153). -/
  | orReg (x y : Reg)
  /-- `8XY2` AND (R154). -/
  | andReg (x y : Reg)
  /-- `8XY3` XOR (R155). -/
  | xorReg (x y : Reg)
  /-- `8XY4` ADD_REG (R160). -/
  | addReg (x y : Reg)
  /-- `8XY5` SUB (R161). -/
  | sub (x y : Reg)
  /-- `8XY6` SHR (R163); `Y` is encoded and ignored (R99). -/
  | shr (x y : Reg)
  /-- `8XY7` SUBN (R162). -/
  | subn (x y : Reg)
  /-- `8XYE` SHL (R164); `Y` is encoded and ignored (R99). -/
  | shl (x y : Reg)
  /-- `9XY0` SNE_REG (R143). -/
  | sneReg (x y : Reg)
  /-- `ANNN` LD_I (R170). -/
  | ldI (nnn : Addr)
  /-- `BNNN` JP_V0 (R135). -/
  | jpV0 (nnn : Addr)
  /-- `CXKK` RND (R173). -/
  | rnd (x : Reg) (kk : Byte)
  /-- `DXYN` DRW (R180); `n` is the count of sprite rows, 0 to 15. -/
  | drw (x y : Reg) (n : Fin 16)
  /-- `EX9E` SKP (R190). -/
  | skp (x : Reg)
  /-- `EXA1` SKNP (R191). -/
  | sknp (x : Reg)
  /-- `FX07` LD_VX_DT (R192). -/
  | ldVxDt (x : Reg)
  /-- `FX0A` LD_VX_K (R195). -/
  | ldVxK (x : Reg)
  /-- `FX15` LD_DT_VX (R193). -/
  | ldDtVx (x : Reg)
  /-- `FX18` LD_ST_VX (R194). -/
  | ldStVx (x : Reg)
  /-- `FX1E` ADD_I (R171). -/
  | addI (x : Reg)
  /-- `FX29` LD_F (R172). -/
  | ldF (x : Reg)
  /-- `FX33` LD_B (R200). -/
  | ldB (x : Reg)
  /-- `FX55` LD_MEM_VX (R201); `x` is the last register of the block. -/
  | ldMemVx (x : Reg)
  /-- `FX65` LD_VX_MEM (R202); `x` is the last register of the block. -/
  | ldVxMem (x : Reg)
  /-- Every word that no row of R96 selects: UNDEFINED_NOP, a defined no-op (R100, R124). It keeps its word. -/
  | undefinedNop (w : Word)
deriving DecidableEq, Repr

end Sys2Proof
end

