-- ==== Sys2Proof/Decode.lean ====
section
/-! DEFINITION. The opcode map (R96), the decoder (R91, R94, R98), total on words and on bytes, and the encoder. The
patterns of the 29 rows that the source does not spell are the spec's general knowledge (R97, log 4). -/

namespace Sys2Proof

/-! ## The opcode map -/

/-- One row of R96: a word `w` is selected by the row when `w AND mask = match` (R94); `pat` is the row's `match`. -/
structure OpcodeRow where
  mnemonic : String
  pat : Word
  mask : Word
deriving DecidableEq, Repr

/-- Rows 1 to 13 of R96. -/
def opcodeRowsA : List OpcodeRow :=
  [⟨"CLS", 0x00E0, 0xFFFF⟩, ⟨"RET", 0x00EE, 0xFFFF⟩, ⟨"JP", 0x1000, 0xF000⟩, ⟨"CALL", 0x2000, 0xF000⟩,
   ⟨"SE_IMM", 0x3000, 0xF000⟩, ⟨"SNE_IMM", 0x4000, 0xF000⟩, ⟨"SE_REG", 0x5000, 0xF00F⟩, ⟨"LD_IMM", 0x6000, 0xF000⟩,
   ⟨"ADD_IMM", 0x7000, 0xF000⟩, ⟨"LD_REG", 0x8000, 0xF00F⟩, ⟨"OR", 0x8001, 0xF00F⟩, ⟨"AND", 0x8002, 0xF00F⟩,
   ⟨"XOR", 0x8003, 0xF00F⟩]

/-- Rows 14 to 23 of R96. -/
def opcodeRowsB : List OpcodeRow :=
  [⟨"ADD_REG", 0x8004, 0xF00F⟩, ⟨"SUB", 0x8005, 0xF00F⟩, ⟨"SHR", 0x8006, 0xF00F⟩, ⟨"SUBN", 0x8007, 0xF00F⟩,
   ⟨"SHL", 0x800E, 0xF00F⟩, ⟨"SNE_REG", 0x9000, 0xF00F⟩, ⟨"LD_I", 0xA000, 0xF000⟩, ⟨"JP_V0", 0xB000, 0xF000⟩,
   ⟨"RND", 0xC000, 0xF000⟩, ⟨"DRW", 0xD000, 0xF000⟩]

/-- Rows 24 to 34 of R96. -/
def opcodeRowsC : List OpcodeRow :=
  [⟨"SKP", 0xE09E, 0xF0FF⟩, ⟨"SKNP", 0xE0A1, 0xF0FF⟩, ⟨"LD_VX_DT", 0xF007, 0xF0FF⟩, ⟨"LD_VX_K", 0xF00A, 0xF0FF⟩,
   ⟨"LD_DT_VX", 0xF015, 0xF0FF⟩, ⟨"LD_ST_VX", 0xF018, 0xF0FF⟩, ⟨"ADD_I", 0xF01E, 0xF0FF⟩, ⟨"LD_F", 0xF029, 0xF0FF⟩,
   ⟨"LD_B", 0xF033, 0xF0FF⟩, ⟨"LD_MEM_VX", 0xF055, 0xF0FF⟩, ⟨"LD_VX_MEM", 0xF065, 0xF0FF⟩]

/-- The complete opcode map of R96, in its order; the fall-through row of R100 is not in it. -/
def opcodeMap : List OpcodeRow := opcodeRowsA ++ opcodeRowsB ++ opcodeRowsC

/-- The row `r` selects the word `w` (R94). -/
abbrev OpcodeRow.selects (r : OpcodeRow) (w : Word) : Prop := w &&& r.mask = r.pat

/-- The mnemonic of an instruction in spec/opcode_table.json. -/
def Instr.mnemonic : Instr → String
  | .cls => "CLS" | .ret => "RET" | .jp _ => "JP" | .call _ => "CALL"
  | .seImm _ _ => "SE_IMM" | .sneImm _ _ => "SNE_IMM" | .seReg _ _ => "SE_REG" | .ldImm _ _ => "LD_IMM"
  | .addImm _ _ => "ADD_IMM" | .ldReg _ _ => "LD_REG" | .orReg _ _ => "OR" | .andReg _ _ => "AND"
  | .xorReg _ _ => "XOR" | .addReg _ _ => "ADD_REG" | .sub _ _ => "SUB" | .shr _ _ => "SHR"
  | .subn _ _ => "SUBN" | .shl _ _ => "SHL" | .sneReg _ _ => "SNE_REG" | .ldI _ => "LD_I"
  | .jpV0 _ => "JP_V0" | .rnd _ _ => "RND" | .drw _ _ _ => "DRW" | .skp _ => "SKP" | .sknp _ => "SKNP"
  | .ldVxDt _ => "LD_VX_DT" | .ldVxK _ => "LD_VX_K" | .ldDtVx _ => "LD_DT_VX" | .ldStVx _ => "LD_ST_VX"
  | .addI _ => "ADD_I" | .ldF _ => "LD_F" | .ldB _ => "LD_B" | .ldMemVx _ => "LD_MEM_VX"
  | .ldVxMem _ => "LD_VX_MEM" | .undefinedNop _ => "UNDEFINED_NOP"

/-! ## The fields of a word (R5, R91) -/

/-- The field `w[lo+3:lo]`, one nibble, as a register index or a count. -/
def nibble (w : Word) (lo : Nat) : Fin 16 := ⟨(w.extractLsb' lo 4).toNat, (w.extractLsb' lo 4).isLt⟩

/-- `X = w[11:8]`. -/
def fieldX (w : Word) : Reg := nibble w 8
/-- `Y = w[7:4]`. -/
def fieldY (w : Word) : Reg := nibble w 4
/-- `N = w[3:0]`. -/
def fieldN (w : Word) : Fin 16 := nibble w 0
/-- `KK = w[7:0]`, "the low byte". -/
def fieldKK (w : Word) : Byte := w.extractLsb' 0 8
/-- `NNN = w[11:0]`, "the low 12 bits". -/
def fieldNNN (w : Word) : Addr := w.extractLsb' 0 12

/-! ## The decoder -/

/-- Group `n3 = 0x8`: `n0` selects among 0 to 7 and 0xE (R98). -/
def decodeGroup8 (w : Word) : Instr :=
  match (fieldN w).val with
  | 0x0 => .ldReg (fieldX w) (fieldY w)
  | 0x1 => .orReg (fieldX w) (fieldY w)
  | 0x2 => .andReg (fieldX w) (fieldY w)
  | 0x3 => .xorReg (fieldX w) (fieldY w)
  | 0x4 => .addReg (fieldX w) (fieldY w)
  | 0x5 => .sub (fieldX w) (fieldY w)
  | 0x6 => .shr (fieldX w) (fieldY w)
  | 0x7 => .subn (fieldX w) (fieldY w)
  | 0xE => .shl (fieldX w) (fieldY w)
  | _ => .undefinedNop w

/-- Group `n3 = 0xF`: the low byte selects (R98). -/
def decodeGroupF (w : Word) : Instr :=
  if fieldKK w = 0x07 then .ldVxDt (fieldX w)
  else if fieldKK w = 0x0A then .ldVxK (fieldX w)
  else if fieldKK w = 0x15 then .ldDtVx (fieldX w)
  else if fieldKK w = 0x18 then .ldStVx (fieldX w)
  else if fieldKK w = 0x1E then .addI (fieldX w)
  else if fieldKK w = 0x29 then .ldF (fieldX w)
  else if fieldKK w = 0x33 then .ldB (fieldX w)
  else if fieldKK w = 0x55 then .ldMemVx (fieldX w)
  else if fieldKK w = 0x65 then .ldVxMem (fieldX w)
  else .undefinedNop w

/-- The instruction of a word (R94, R98, R123). Total: a word that no row selects is the defined no-op (R100); decoding
reads no state and cannot fault. -/
def decodeWord (w : Word) : Instr :=
  match (nibble w 12).val with
  | 0x0 => if w = 0x00E0 then .cls else if w = 0x00EE then .ret else .undefinedNop w
  | 0x1 => .jp (fieldNNN w)
  | 0x2 => .call (fieldNNN w)
  | 0x3 => .seImm (fieldX w) (fieldKK w)
  | 0x4 => .sneImm (fieldX w) (fieldKK w)
  | 0x5 => if fieldN w = 0 then .seReg (fieldX w) (fieldY w) else .undefinedNop w
  | 0x6 => .ldImm (fieldX w) (fieldKK w)
  | 0x7 => .addImm (fieldX w) (fieldKK w)
  | 0x8 => decodeGroup8 w
  | 0x9 => if fieldN w = 0 then .sneReg (fieldX w) (fieldY w) else .undefinedNop w
  | 0xA => .ldI (fieldNNN w)
  | 0xB => .jpV0 (fieldNNN w)
  | 0xC => .rnd (fieldX w) (fieldKK w)
  | 0xD => .drw (fieldX w) (fieldY w) (fieldN w)
  | 0xE =>
    if fieldKK w = 0x9E then .skp (fieldX w)
    else if fieldKK w = 0xA1 then .sknp (fieldX w)
    else .undefinedNop w
  | _ => decodeGroupF w

/-- Why a list of bytes is no instruction. -/
inductive DecodeError where
  /-- Fewer than the two bytes of R90 are there. -/
  | truncated
deriving DecidableEq, Repr

/-- `b0 ++ b1`: the word of two bytes, the byte at the lower address in the high half (R61). -/
def wordOfBytes (b0 b1 : Byte) : Word := b0 ++ b1

/-- The two bytes of a word as memory holds them, the high byte first (R61, R90). -/
def bytesOfWord (w : Word) : List Byte := [w.extractLsb' 8 8, w.extractLsb' 0 8]

/-- The instruction at the head of a byte list, and the bytes after it (R90, R91): any bytes, rejecting by name what
is too short to be an instruction. -/
def decode : List Byte → Except DecodeError (Instr × List Byte)
  | b0 :: b1 :: rest => .ok (decodeWord (wordOfBytes b0 b1), rest)
  | _ => .error .truncated

/-- The instruction word of the host's numbering: `nbits` bits of `w`, every bit above them 0; the only length is 16
bits (R90). -/
def tableWord (nbits w : Nat) : Word := BitVec.ofNat 16 (w % 2 ^ nbits)

/-- The instruction this decoder reads from the bytes of a word numbered as spec/opcode_table.json numbers it. -/
def decodeTableWord (nbits w : Nat) : Option Instr :=
  match decode (bytesOfWord (tableWord nbits w)) with
  | .ok (i, _) => some i
  | .error _ => none

/-! ## The encoder (R91, R96) -/

/-- A register index or a count as its nibble. -/
def nib (x : Fin 16) : BitVec 4 := BitVec.ofNat 4 x.val

/-- Shape `A` (R92): opcode nibble, `NNN`. -/
def encodeA (op : BitVec 4) (nnn : Addr) : Word := op ++ nnn
/-- Shape `I` (R92): opcode nibble, `X`, `KK`. -/
def encodeI (op : BitVec 4) (x : Reg) (kk : Byte) : Word := op ++ nib x ++ kk
/-- Shapes `R` and `D` (R92): opcode nibble, `X`, `Y`, low nibble. -/
def encodeR (op : BitVec 4) (x y n : Fin 16) : Word := op ++ nib x ++ nib y ++ nib n

/-- The word of an instruction, from the patterns of R96. -/
def encode : Instr → Word
  | .cls => 0x00E0
  | .ret => 0x00EE
  | .jp nnn => encodeA 0x1 nnn
  | .call nnn => encodeA 0x2 nnn
  | .seImm x kk => encodeI 0x3 x kk
  | .sneImm x kk => encodeI 0x4 x kk
  | .seReg x y => encodeR 0x5 x y 0x0
  | .ldImm x kk => encodeI 0x6 x kk
  | .addImm x kk => encodeI 0x7 x kk
  | .ldReg x y => encodeR 0x8 x y 0x0
  | .orReg x y => encodeR 0x8 x y 0x1
  | .andReg x y => encodeR 0x8 x y 0x2
  | .xorReg x y => encodeR 0x8 x y 0x3
  | .addReg x y => encodeR 0x8 x y 0x4
  | .sub x y => encodeR 0x8 x y 0x5
  | .shr x y => encodeR 0x8 x y 0x6
  | .subn x y => encodeR 0x8 x y 0x7
  | .shl x y => encodeR 0x8 x y 0xE
  | .sneReg x y => encodeR 0x9 x y 0x0
  | .ldI nnn => encodeA 0xA nnn
  | .jpV0 nnn => encodeA 0xB nnn
  | .rnd x kk => encodeI 0xC x kk
  | .drw x y n => encodeR 0xD x y n
  | .skp x => encodeI 0xE x 0x9E
  | .sknp x => encodeI 0xE x 0xA1
  | .ldVxDt x => encodeI 0xF x 0x07
  | .ldVxK x => encodeI 0xF x 0x0A
  | .ldDtVx x => encodeI 0xF x 0x15
  | .ldStVx x => encodeI 0xF x 0x18
  | .addI x => encodeI 0xF x 0x1E
  | .ldF x => encodeI 0xF x 0x29
  | .ldB x => encodeI 0xF x 0x33
  | .ldMemVx x => encodeI 0xF x 0x55
  | .ldVxMem x => encodeI 0xF x 0x65
  | .undefinedNop w => w

end Sys2Proof
end

