-- ==== Sys2Proof/Config.lean ====
section
/-! DEFINITION. What the spec leaves open (spec/92_eei_decisions.md, open parameters) and the two load parameters of
R4. The other parameters of R4 are the shapes of the types of `State`. -/

namespace Sys2Proof

/-- The source's `random_byte()` (R126, R173, D13) where the host gives a step no byte: a free value. It has no body, so
nothing can be proved of its values; it is applied to the counter `StepInput.drawn`, so that every input is a byte of
its own (log 1). -/
opaque Config.randomByte : Nat → Byte

/-- `PROG_BASE`: the load address and the reset value of `PC` (R4). -/
abbrev Config.progBase : Nat := 0x200

/-- `MAX_IMAGE`: the longest loadable image (R4). -/
abbrev Config.maxImage : Nat := 3584

end Sys2Proof
end

