-- ==== Sys2Proof/Machine/State.lean ====
section
/-! DEFINITION. The state of the machine (R20: exactly eleven components), the input of a step (R126), the two together
as the host's interface takes them, the five fatal errors (R230, R231), the reasons a step can stop, and the state after
reset (R36). -/

namespace Sys2Proof.Machine

/-- The five fatal errors of R230. Each is raised by the operations that R230 names and is held by the fault latch. -/
inductive FatalError where
  /-- A push with a full stack: `2NNN` at `SP = 16` (R130). -/
  | stackOverflow
  /-- A pop with an empty stack: `00EE` at `SP = 0` (R131). -/
  | stackUnderflow
  /-- A fetch, draw, BCD store or block store or load at an address of 4096 or more (R68). -/
  | memoryOutOfBounds
  /-- A key test or `set_key` with an index outside 0 to 15 (R190, R191, R212). -/
  | invalidKeyIndex
  /-- `load` of more than 3584 bytes (R211). -/
  | imageTooLarge
deriving DecidableEq, Repr

/-- Why a step has no next state. -/
inductive Fault where
  /-- The fault latch is set. Raised by `step` alone, on a machine whose `FAULT` already holds `e`: the faulted state
  has no step (R125, R234). Safe: the spec's faulted machine changes nothing until a reset. -/
  | faulted (e : FatalError)
deriving DecidableEq, Repr

/-- Why an instruction has no meaning here. -/
inductive Refusal where
  /-- The instruction is not modelled. Raised by `exec`'s refused arms alone, of which there is none. Safe. -/
  | notModelled (mnemonic : String)
deriving DecidableEq, Repr

/-- The framebuffer (R31): 32 rows of 64 pixels; the cell `FB[p]` is in row `p / 64` at column `p mod 64`. -/
abbrev Framebuffer := Vector (Vector Bool 64) 32

/-- The machine state: exactly the eleven components of R20, and nothing else (R35, R39). `mem` lists the bytes that
differ from their reset contents, in canonical form (Machine/Memory.lean). -/
structure MachineState where
  /-- `V[0]` to `V[15]`; `V[15]` is `VF` (R21, R22). -/
  v : Vector Byte 16
  /-- The program counter (R23, R24). -/
  pc : Word
  /-- The index register `I` (R25). -/
  i : Word
  /-- `STACK[0]` to `STACK[15]` (R26). -/
  stack : Vector Word 16
  /-- `SP`, the next free slot, 0 to 16 (R26, R27). -/
  sp : Fin 17
  /-- The delay timer (R28). -/
  dt : Byte
  /-- The sound timer (R29). -/
  st : Byte
  /-- `KEY[k]`: logical key `k` is pressed (R30). -/
  key : Vector Bool 16
  /-- `FB[0]` to `FB[2047]` (R31), by rows. -/
  fb : Framebuffer
  /-- The bytes of `MEM` that differ from their reset contents, by address (R32). -/
  mem : List Host.Cell
  /-- The fault latch (R34). -/
  fault : Option FatalError
deriving DecidableEq, Repr

/-- The input `rnd` of the coming step (R126, D13): the byte that the host gives or, where it gives none, the free value
number `drawn` (log 1). It is outside the machine and no state of it (R35). -/
structure StepInput where
  /-- The byte that the host gives, any of the 256, if it gives one. -/
  given : Option Byte
  /-- How many inputs have been used up, so that each further free value is one of its own (log 2). -/
  drawn : Nat
deriving DecidableEq, Repr

/-- What the host's interface takes and answers: the machine (R20), and beside it the input of its coming step, because
`step` there has no argument for `rnd` (log 1). -/
structure State extends machine : MachineState where
  /-- The input of the coming step (R126): not the machine's, and no state that the spec names. -/
  rnd : StepInput
deriving DecidableEq, Repr

/-- The machine right after reset (R36, R270, R271): `PC = 0x200`, all arrays zeroed, memory at its reset contents
(nothing listed), no fault. -/
def MachineState.reset : MachineState where
  v := Vector.replicate 16 0
  pc := 0x200
  i := 0
  stack := Vector.replicate 16 0
  sp := 0
  dt := 0
  st := 0
  key := Vector.replicate 16 false
  fb := Vector.replicate 32 (Vector.replicate 64 false)
  mem := []
  fault := none

/-- The machine right after reset, with no byte given for its first step (log 2). -/
def State.reset : State where
  machine := MachineState.reset
  rnd := { given := none, drawn := 0 }

end Sys2Proof.Machine
end

