-- ==== Sys2Proof/Machine/Memory.lean ====
section
/-! DEFINITION. The reset contents of memory (R33, R36, R67) and memory as a canonical list of the bytes that differ
from them: reading one byte, writing bytes. Addresses are unbounded natural numbers (R8, R9, D8); the bounds are
checked by the operations of Ops.lean. -/

namespace Sys2Proof.Machine

/-- The default of the parameter `FONT` (R33): the conventional glyphs of the digits 0 to F, five bytes each, top row
first. PRESUMED: the byte values are the spec's general knowledge, not the source's (D12, log 3). -/
def defaultGlyphs : List (List Byte) :=
  [[0xF0, 0x90, 0x90, 0x90, 0xF0], [0x20, 0x60, 0x20, 0x20, 0x70], [0xF0, 0x10, 0xF0, 0x80, 0xF0],
   [0xF0, 0x10, 0xF0, 0x10, 0xF0], [0x90, 0x90, 0xF0, 0x10, 0x10], [0xF0, 0x80, 0xF0, 0x10, 0xF0],
   [0xF0, 0x80, 0xF0, 0x90, 0xF0], [0xF0, 0x10, 0x20, 0x40, 0x40]] ++
  [[0xF0, 0x90, 0xF0, 0x90, 0xF0], [0xF0, 0x90, 0xF0, 0x10, 0xF0], [0xF0, 0x90, 0xF0, 0x90, 0x90],
   [0xE0, 0x90, 0xE0, 0x90, 0xE0], [0xF0, 0x80, 0x80, 0x80, 0xF0], [0xE0, 0x90, 0x90, 0x90, 0xE0],
   [0xF0, 0x80, 0xF0, 0x80, 0xF0], [0xF0, 0x80, 0xF0, 0x80, 0x80]]

/-- What a byte of memory that nothing has written reads as: byte `a mod 5` of glyph `a / 5` at addresses 0 to 79, zero
above (R36, R67). -/
def resetByte (a : Nat) : Byte := (defaultGlyphs.getD (a / 5) []).getD (a % 5) 0

/-- Memory: the bytes that differ from their reset contents, by address. -/
abbrev Memory := List Host.Cell

/-- The canonical form: addresses strictly rising, all below 4096, no entry equal to what an unlisted address reads as.
Equal memories are then equal lists. -/
abbrev Memory.wf (m : Memory) : Prop :=
  m.Pairwise (fun c d => c.1 < d.1) ∧ ∀ c ∈ m, c.1 < 4096 ∧ c.2 ≠ resetByte c.1

/-- `MEM[a]` (R32): the listed byte, or the reset contents. -/
def Memory.byteAt : Memory → Nat → Byte
  | [], a => resetByte a
  | c :: m, a => if c.1 = a then c.2 else Memory.byteAt m a

/-- Insert an entry in address order. -/
def Memory.insertCell : Memory → Nat → Byte → Memory
  | [], a, b => [(a, b)]
  | c :: m, a, b => if a < c.1 then (a, b) :: c :: m else c :: Memory.insertCell m a b

/-- `MEM[a] <- b` (R9): the old entry goes, and a new one comes unless `b` is what an unlisted `a` reads as. -/
def Memory.put (m : Memory) (a : Nat) (b : Byte) : Memory :=
  if b = resetByte a then m.filter (fun c => decide (c.1 ≠ a))
  else Memory.insertCell (m.filter (fun c => decide (c.1 ≠ a))) a b

/-- Write the bytes of a list at `a`, `a + 1`, …, in that order (R71). -/
def Memory.putBytes : Memory → Nat → List Byte → Memory
  | m, _, [] => m
  | m, a, b :: bs => Memory.putBytes (Memory.put m a b) (a + 1) bs

/-- The `n` bytes at `a`, `a + 1`, …. -/
def Memory.bytesAt (m : Memory) (a n : Nat) : List Byte := (List.range n).map fun k => Memory.byteAt m (a + k)

end Sys2Proof.Machine
end

