-- ==== Sys2Proof/Machine/Ops.lean ====
section
/-! DEFINITION. The named operations over registers, memory, stack and program counter, and taking a fatal error. -/

namespace Sys2Proof.Machine

/-- What one execution answers. -/
abbrev Result := Host.Outcome State Fault Refusal

/-! ## Registers -/

/-- `V[x]` (R7, R21). -/
def State.reg (s : State) (x : Reg) : Byte := s.v[x]

/-- `V[x] <- b` (R7, R21); no register is hard-wired. -/
def State.setReg (s : State) (x : Reg) (b : Byte) : State := { s with v := s.v.set x b }

/-- `PC <- t` (R7). -/
def State.setPc (s : State) (t : Word) : State := { s with pc := t }

/-- `I <- t` (R25). -/
def State.setI (s : State) (t : Word) : State := { s with i := t }

/-- `skip`: two more on the advanced counter (R11). -/
def State.skip (s : State) : State := s.setPc (s.pc + 2)

/-- `skip` when the condition holds. -/
def State.skipIf (s : State) (c : Bool) : State := if c then s.skip else s

/-! ## Fatal errors: taking one, and what there is in place of a return -/

/-- `raise e`, in an operation on a machine without a fault: the latch is set and the operation makes no other write
(R10, R233). There is no handler, no saved state and no return (R237); only the host's `reset` clears the latch. -/
def State.raise (s : State) (e : FatalError) : State := { s with fault := some e }

/-- The code of an error, as the fault port shows it (R231). -/
def FatalError.code : FatalError → Nat
  | .stackOverflow => 1
  | .stackUnderflow => 2
  | .memoryOutOfBounds => 3
  | .invalidKeyIndex => 4
  | .imageTooLarge => 5

/-- End an operation begun in `s`: the state it computed, or, when a check raised, `s` with the error latched and
nothing else written (R10, R235). -/
def State.finish (s : State) (r : Except FatalError State) : Result :=
  match r with
  | .ok t => .next t
  | .error e => .next (s.raise e)

/-! ## Memory -/

/-- An access of `n` bytes at `a` reaches no address of 4096 or more; an access of no byte reaches none (R8, R68). -/
def inBounds (a n : Nat) : Bool := decide (n = 0 ∨ a + n - 1 ≤ 0xFFF)

/-- `MEM[a]`. -/
def State.byteAt (s : State) (a : Nat) : Byte := Memory.byteAt s.mem a

/-- `MemRead` of `n` consecutive bytes (R8, R68). -/
def State.memRead (s : State) (a n : Nat) : Except FatalError (List Byte) :=
  if inBounds a n then .ok (Memory.bytesAt s.mem a n) else .error .memoryOutOfBounds

/-- `MemWrite` of consecutive bytes, the bound of all of them checked before the first is written (R9, R235). -/
def State.memWrite (s : State) (a : Nat) (bs : List Byte) : Except FatalError State :=
  if inBounds a bs.length then .ok { s with mem := Memory.putBytes s.mem a bs } else .error .memoryOutOfBounds

/-! ## The call stack -/

/-- `push(t)` (R130). -/
def State.push (s : State) (t : Word) : Except FatalError State :=
  if h : s.sp.val < 16 then .ok { s with stack := s.stack.set s.sp.val t, sp := ⟨s.sp.val + 1, by omega⟩ }
  else .error .stackOverflow

/-- `pop()` (R131): the popped value and the state; the slot keeps its value (R26). -/
def State.pop (s : State) : Except FatalError (Word × State) :=
  if h : s.sp.val = 0 then .error .stackUnderflow
  else .ok (s.stack[s.sp.val - 1]'(by omega), { s with sp := ⟨s.sp.val - 1, by omega⟩ })

/-! ## The framebuffer -/

/-- `FB[p]`, the pixel at column `p mod 64` of row `p / 64` (R31). -/
def Framebuffer.cell (fb : Framebuffer) (p : Fin 2048) : Bool :=
  (fb[p.val / 64]'(by omega))[p.val % 64]'(by omega)

/-- `FB[p] <- not FB[p]` (R180). -/
def Framebuffer.toggle (fb : Framebuffer) (p : Fin 2048) : Framebuffer :=
  fb.set (p.val / 64) ((fb[p.val / 64]'(by omega)).set (p.val % 64) (!Framebuffer.cell fb p) (by omega)) (by omega)

/-- The framebuffer with every pixel unset (R181). -/
def Framebuffer.clear : Framebuffer := Vector.replicate 32 (Vector.replicate 64 false)

/-- `FB[p]` of a state (R31). -/
def State.pixel (s : State) (p : Fin 2048) : Bool := Framebuffer.cell s.fb p

/-! ## The input of a step -/

/-- An input that is the byte `b`. -/
def StepInput.give (r : StepInput) (b : Byte) : StepInput := { r with given := some b }

/-- `rnd`, the byte of the input: the given one, or the free value (R126, log 1). -/
def StepInput.byte (r : StepInput) : Byte := r.given.getD (Config.randomByte r.drawn)

/-- The input after this one has been used up: the next free value, nothing given. -/
def StepInput.next (r : StepInput) : StepInput := { given := none, drawn := r.drawn + 1 }

/-! ## Fetch -/

/-- The fetch (R121): the word at `PC`, `PC + 1`, big-endian, and the state with `PC` advanced by 2; `PC + 1` is an
unbounded integer. -/
def State.fetch (s : State) : Except FatalError (Word × State) :=
  if inBounds s.pc.toNat 2 then
    .ok (wordOfBytes (s.byteAt s.pc.toNat) (s.byteAt (s.pc.toNat + 1)), s.setPc (s.pc + 2))
  else .error .memoryOutOfBounds

end Sys2Proof.Machine
end

