-- ==== Sys2Proof/Machine/Flags.lean ====
section
/-! DEFINITION. The integer arithmetic of R12 on bytes and the flag computations of R22. Sums and comparisons are exact,
on natural numbers, and narrowed at the end. -/

namespace Sys2Proof.Machine

/-- `bit(c)`: 1 when the condition holds, else 0, as an 8-bit value (R6). -/
def bit (c : Bool) : Byte := if c then 1 else 0

/-- 8-bit add: `(a + b) mod 256`. -/
def addResult (a b : Byte) : Byte := BitVec.ofNat 8 (a.toNat + b.toNat)

/-- Carry of an 8-bit add: `bit(a + b > 255)` (R151, R160). -/
def carryFlag (a b : Byte) : Byte := bit (decide (a.toNat + b.toNat > 255))

/-- 8-bit subtract: `(a − b) mod 256`, that is `a − b + 256` when `a < b`. -/
def subResult (a b : Byte) : Byte := BitVec.ofNat 8 (a.toNat + 256 - b.toNat)

/-- No borrow in `a − b`: `bit(a ≥ b)` (R161, R162). -/
def noBorrowFlag (a b : Byte) : Byte := bit (decide (a.toNat ≥ b.toNat))

/-- Logical shift right by one: `floor(a / 2)` (R163). -/
def shrResult (a : Byte) : Byte := BitVec.ofNat 8 (a.toNat / 2)

/-- The bit a right shift drops: `a[0]` (R163). -/
def shrFlag (a : Byte) : Byte := bit (a.getLsbD 0)

/-- Shift left by one: `(2·a) mod 256` (R164). -/
def shlResult (a : Byte) : Byte := BitVec.ofNat 8 (2 * a.toNat)

/-- The flag of the left shift: `a[3]`, the bit at mask 0x08 before the shift, as 0 or 1; NOT bit 7 (R164). -/
def shlFlag (a : Byte) : Byte := bit (a.getLsbD 3)

/-- Write a result to `V[x]` and then a flag to `VF` (R38): with `x = 0xF` the flag is what remains. -/
def State.setResultThenFlag (s : State) (x : Reg) (result flag : Byte) : State := (s.setReg x result).setReg VF flag

end Sys2Proof.Machine
end

