-- ==== Sys2Proof/Machine/Operands.lean ====
section
/-! DEFINITION. Operands: the one addressing mode (R203), register blocks (R201, R202), decimal digits (R200), key
indices (R190, R195), and the pixels of a sprite (R180, R182). -/

namespace Sys2Proof.Machine

/-! ## Addresses and register blocks -/

/-- `I` as an unbounded integer, the base of every data access; byte `k` of the access is at `I + k` (R68, R203). -/
def State.base (s : State) : Nat := s.i.toNat

/-- `V[0]` to `V[x]`, in order (R201). -/
def State.block (s : State) (x : Reg) : List Byte := s.v.toList.take (x.val + 1)

/-- `V[j] <- bs[j]` for every `j` that `bs` reaches; the registers above are unchanged (R202). -/
def State.setBlock (s : State) (bs : List Byte) : State :=
  { s with v := Vector.ofFn fun j : Fin 16 => bs.getD j.val s.v[j] }

/-- Hundreds, tens and ones of a byte, each digit in a byte of its own (R200). -/
def decimalDigits (b : Byte) : List Byte :=
  [BitVec.ofNat 8 (b.toNat / 100), BitVec.ofNat 8 (b.toNat / 10 % 10), BitVec.ofNat 8 (b.toNat % 10)]

/-! ## Keys -/

/-- `KEY[k]` for a whole 8-bit register value `k`; above 15 it raises (R190, R191). -/
def State.keyAt (s : State) (k : Byte) : Except FatalError Bool :=
  if h : k.toNat < 16 then .ok (s.key[k.toNat]'h) else .error .invalidKeyIndex

/-- The least `k` with `KEY[k]`, if there is one (R195). -/
def State.lowestKey (s : State) : Option (Fin 16) := (List.finRange 16).find? fun k => s.key[k]

/-! ## Sprites -/

/-- `p(r, c) = ((x0 + c) mod 64) + 64·((y0 + r) mod 32)`: the cell of row `r`, column `c` of a sprite drawn at
`(x0, y0)` (R182). -/
def pixelCell (x0 y0 : Byte) (r c : Nat) : Fin 2048 :=
  ⟨(x0.toNat + c) % 64 + 64 * ((y0.toNat + r) % 32), by omega⟩

/-- The cells that the set bits of row byte `b` name, from column 0 to column 7; bit `7 − c` is column `c` (R182). -/
def rowCells (x0 y0 : Byte) (r : Nat) (b : Byte) : List (Fin 2048) :=
  ((List.range 8).filter fun c => b.getLsbD (7 - c)).map (pixelCell x0 y0 r)

/-- The cells that the rows of a sprite toggle, in the order in which R180 visits them; `r` is the first row's number. -/
def spriteCells (x0 y0 : Byte) : Nat → List Byte → List (Fin 2048)
  | _, [] => []
  | r, b :: bs => rowCells x0 y0 r b ++ spriteCells x0 y0 (r + 1) bs

/-- Toggle the cells one after another, and note whether one went from set to unset (R180). -/
def toggleCells : Framebuffer → Bool → List (Fin 2048) → Framebuffer × Bool
  | fb, hit, [] => (fb, hit)
  | fb, hit, p :: ps => toggleCells (Framebuffer.toggle fb p) (hit || Framebuffer.cell fb p) ps

end Sys2Proof.Machine
end

