-- ==== Sys2Proof/Machine/Arith.lean ====
section
/-! DEFINITION. Register arithmetic with carry and borrow, and the shifts (spec/44_carry_arith_shift.md): operands
first, then `V[X]`, then `VF` (R38). -/

namespace Sys2Proof.Machine

/-- `8XY4` ADD (R160). -/
def execAddReg (x y : Reg) (s : State) : Result :=
  .next (s.setResultThenFlag x (addResult (s.reg x) (s.reg y)) (carryFlag (s.reg x) (s.reg y)))

/-- `8XY5` SUB: `V[X] − V[Y]` (R161). -/
def execSub (x y : Reg) (s : State) : Result :=
  .next (s.setResultThenFlag x (subResult (s.reg x) (s.reg y)) (noBorrowFlag (s.reg x) (s.reg y)))

/-- `8XY7` SUBN: `V[Y] − V[X]` (R162). -/
def execSubn (x y : Reg) (s : State) : Result :=
  .next (s.setResultThenFlag x (subResult (s.reg y) (s.reg x)) (noBorrowFlag (s.reg y) (s.reg x)))

/-- `8XY6` SHR, in place; the `Y` field plays no part (R163, R99). -/
def execShr (x _y : Reg) (s : State) : Result :=
  .next (s.setResultThenFlag x (shrResult (s.reg x)) (shrFlag (s.reg x)))

/-- `8XYE` SHL, in place, flag bit 3; the `Y` field plays no part (R164, R99). -/
def execShl (x _y : Reg) (s : State) : Result :=
  .next (s.setResultThenFlag x (shlResult (s.reg x)) (shlFlag (s.reg x)))

end Sys2Proof.Machine
end

