-- ==== Sys2Proof/Machine/ControlFlow.lean ====
section
/-! DEFINITION. Control flow (spec/41_control_flow.md). `s` is the state after the fetch, with `PC` advanced (R122). -/

namespace Sys2Proof.Machine

/-- `1NNN` JP: `PC <- NNN` (R132). -/
def execJp (nnn : Addr) (s : State) : Result := .next (s.setPc (zext16 nnn))

/-- `2NNN` CALL: push the advanced `PC`, then `PC <- NNN` (R133). -/
def execCall (nnn : Addr) (s : State) : Result :=
  s.finish (match s.push s.pc with
    | .ok t => .ok (t.setPc (zext16 nnn))
    | .error e => .error e)

/-- `00EE` RET: `PC <- pop()` (R134). -/
def execRet (s : State) : Result :=
  s.finish (match s.pop with
    | .ok (a, t) => .ok (t.setPc a)
    | .error e => .error e)

/-- `BNNN` JP V0: `PC <- V[0] + NNN`, at most 0x10FE, not reduced to 12 bits (R135). -/
def execJpV0 (nnn : Addr) (s : State) : Result := .next (s.setPc ((s.reg 0).setWidth 16 + zext16 nnn))

end Sys2Proof.Machine
end

