-- ==== Sys2Proof/Machine/Display.lean ====
section
/-! DEFINITION. Display (spec/46_display.md). -/

namespace Sys2Proof.Machine

/-- `00E0` CLS: every pixel unset, nothing else (R181). -/
def execCls (s : State) : Result := .next { s with fb := Framebuffer.clear }

/-- `DXYN` DRW: toggle the pixels of the `n`-row sprite at `I` drawn at `(V[X], V[Y])`, then `VF <- collision`. The
coordinates are read before `VF` is written; the bound of all rows is checked before any pixel changes (R180, R182). -/
def execDrw (x y : Reg) (n : Fin 16) (s : State) : Result :=
  s.finish (match s.memRead s.base n.val with
    | .ok rows =>
      let drawn := toggleCells s.fb false (spriteCells (s.reg x) (s.reg y) 0 rows)
      .ok (State.setReg { s with fb := drawn.1 } VF (bit drawn.2))
    | .error e => .error e)

end Sys2Proof.Machine
end

