-- ==== Sys2Proof/Machine/Index.lean ====
section
/-! DEFINITION. Index register and random (spec/45_index_random.md). None accesses memory, none writes `VF` as a flag. -/

namespace Sys2Proof.Machine

/-- `ANNN` LD I: `I <- NNN` (R170). -/
def execLdI (nnn : Addr) (s : State) : Result := .next (s.setI (zext16 nnn))

/-- `FX1E` ADD I: `I <- (I + V[X]) mod 65536` (R171). -/
def execAddI (x : Reg) (s : State) : Result := .next (s.setI (s.i + (s.reg x).setWidth 16))

/-- `FX29` LD F: `I <- 5·V[X]`, the whole register, no mask (R172). -/
def execLdF (x : Reg) (s : State) : Result := .next (s.setI (BitVec.ofNat 16 (5 * (s.reg x).toNat)))

/-- `CXKK` RND with the random byte `rnd` as an argument: `V[X] <- rnd AND KK` (R173, R126). -/
def rndWith (rnd : Byte) (x : Reg) (kk : Byte) (s : State) : State := s.setReg x (rnd &&& kk)

/-- `CXKK` RND: `rnd` is the step's input, which this instruction alone uses up (R126, R173, log 1). -/
def execRnd (x : Reg) (kk : Byte) (s : State) : Result :=
  .next { rndWith s.rnd.byte x kk s with rnd := s.rnd.next }

end Sys2Proof.Machine
end

