-- ==== Sys2Proof/Machine/KeysTimers.lean ====
section
/-! DEFINITION. Key tests, timer moves and the key wait (spec/47_keys_timers.md). -/

namespace Sys2Proof.Machine

/-- `EX9E` SKP: skip if the key indexed by `V[X]` is pressed; an index above 15 raises (R190). -/
def execSkp (x : Reg) (s : State) : Result :=
  s.finish (match s.keyAt (s.reg x) with
    | .ok pressed => .ok (s.skipIf pressed)
    | .error e => .error e)

/-- `EXA1` SKNP: skip if the key indexed by `V[X]` is not pressed; an index above 15 raises (R191). -/
def execSknp (x : Reg) (s : State) : Result :=
  s.finish (match s.keyAt (s.reg x) with
    | .ok pressed => .ok (s.skipIf (!pressed))
    | .error e => .error e)

/-- `FX07` LD VX, DT (R192). -/
def execLdVxDt (x : Reg) (s : State) : Result := .next (s.setReg x s.dt)

/-- `FX15` LD DT, VX (R193). -/
def execLdDtVx (x : Reg) (s : State) : Result := .next { s with dt := s.reg x }

/-- `FX18` LD ST, VX (R194). -/
def execLdStVx (x : Reg) (s : State) : Result := .next { s with st := s.reg x }

/-- `FX0A` LD VX, K: the least pressed key, or the counter rewound by 2 so that the next step fetches the same
instruction (R195). -/
def execLdVxK (x : Reg) (s : State) : Result :=
  match s.lowestKey with
  | some k => .next (s.setReg x (BitVec.ofNat 8 k.val))
  | none => .next (s.setPc (s.pc - 2))

end Sys2Proof.Machine
end

