-- ==== Sys2Proof/Machine/MemoryBlock.lean ====
section
/-! DEFINITION. Memory instructions (spec/48_memory_block.md). `I` is never modified (R203); the bound of the whole
access is checked before anything is written (R235). -/

namespace Sys2Proof.Machine

/-- `FX33` LD B: the three decimal digits of `V[X]` at `I`, `I + 1`, `I + 2` (R200). -/
def execLdB (x : Reg) (s : State) : Result := s.finish (s.memWrite s.base (decimalDigits (s.reg x)))

/-- `FX55` LD [I], VX: `V[0]` to `V[X]` at `I` to `I + X` (R201). -/
def execLdMemVx (x : Reg) (s : State) : Result := s.finish (s.memWrite s.base (s.block x))

/-- `FX65` LD VX, [I]: `V[0]` to `V[X]` from `I` to `I + X` (R202). -/
def execLdVxMem (x : Reg) (s : State) : Result :=
  s.finish (match s.memRead s.base (x.val + 1) with
    | .ok bs => .ok (s.setBlock bs)
    | .error e => .error e)

end Sys2Proof.Machine
end

