-- ==== Sys2Proof/Machine/MoveLogic.lean ====
section
/-! DEFINITION. Moves, immediate add and bitwise logic (spec/43_moves_logic.md). Of these only 7XKK writes `VF` as a
flag (R22, D6). -/

namespace Sys2Proof.Machine

/-- `6XKK` LD: `V[X] <- KK` (R150). -/
def execLdImm (x : Reg) (kk : Byte) (s : State) : Result := .next (s.setReg x kk)

/-- `7XKK` ADD: `V[X] <- V[X] + KK`, then `VF <- carry`, on every execution (R151, R38). -/
def execAddImm (x : Reg) (kk : Byte) (s : State) : Result :=
  .next (s.setResultThenFlag x (addResult (s.reg x) kk) (carryFlag (s.reg x) kk))

/-- `8XY0` LD: `V[X] <- V[Y]` (R152). -/
def execLdReg (x y : Reg) (s : State) : Result := .next (s.setReg x (s.reg y))

/-- `8XY1` OR (R153). -/
def execOr (x y : Reg) (s : State) : Result := .next (s.setReg x (s.reg x ||| s.reg y))

/-- `8XY2` AND (R154). -/
def execAnd (x y : Reg) (s : State) : Result := .next (s.setReg x (s.reg x &&& s.reg y))

/-- `8XY3` XOR (R155). -/
def execXor (x y : Reg) (s : State) : Result := .next (s.setReg x (s.reg x ^^^ s.reg y))

end Sys2Proof.Machine
end

