-- ==== Sys2Proof/Machine/Skip.lean ====
section
/-! DEFINITION. Conditional skips (spec/42_conditional_skip.md); no register is written (R144). -/

namespace Sys2Proof.Machine

/-- `3XKK` SE: skip if `V[X] = KK` (R140). -/
def execSeImm (x : Reg) (kk : Byte) (s : State) : Result := .next (s.skipIf (s.reg x == kk))

/-- `4XKK` SNE: skip if `V[X] ≠ KK` (R141). -/
def execSneImm (x : Reg) (kk : Byte) (s : State) : Result := .next (s.skipIf (s.reg x != kk))

/-- `5XY0` SE: skip if `V[X] = V[Y]` (R142). -/
def execSeReg (x y : Reg) (s : State) : Result := .next (s.skipIf (s.reg x == s.reg y))

/-- `9XY0` SNE: skip if `V[X] ≠ V[Y]` (R143). -/
def execSneReg (x y : Reg) (s : State) : Result := .next (s.skipIf (s.reg x != s.reg y))

end Sys2Proof.Machine
end

