-- ==== Sys2Proof/Machine/Undefined.lean ====
section
/-! DEFINITION. The undefined word (spec/40_step_fetch_decode.md R124): a defined no-op, never an error (R240). -/

namespace Sys2Proof.Machine

/-- UNDEFINED_NOP: the execute phase does nothing (R124). -/
def execUndefinedNop (_w : Word) (s : State) : Result := .next s

end Sys2Proof.Machine
end

