-- ==== Sys2Proof/Machine/Step.lean ====
section
/-! DEFINITION. One step (R120): the fault test, the fetch, the decoding and the execute phase; and the placing of a
word where the next step fetches. -/

namespace Sys2Proof.Machine

/-- `step` (R120). A faulted machine has no step (R125, R234). A fetch out of bounds latches the error and changes
nothing else (R121, R235). -/
def step (s : State) : Host.Outcome State Fault Refusal :=
  match s.fault with
  | some e => .fault (.faulted e)
  | none =>
    match s.fetch with
    | .ok (w, t) => exec (decodeWord w) t
    | .error e => .next (s.raise e)

/-- `s` with a word stored, high byte first, where the next step fetches it, at `PC` and `PC + 1` (R61). It stands for
the host's `load` (log 8). It places a fetchable word when `PC ≤ 0xFFE` and no fault is latched; at `PC ≥ 0xFFF` there
is no such place and nothing is written. -/
def State.withFetchWord (s : State) (nbits w : Nat) : State :=
  if inBounds s.pc.toNat 2 then
    { s with mem := Memory.putBytes s.mem s.pc.toNat (bytesOfWord (tableWord nbits w)) }
  else s

end Sys2Proof.Machine
end

