-- ==== Sys2Proof/Machine/HostOps.lean ====
section
/-! DEFINITION. The host operations (spec/49_host_operations.md, spec/70_reset_and_hazards.md): each atomic, applied one
after another to the state left by the one before (R210). -/

namespace Sys2Proof.Machine

/-- The parameter `FONT[0..79]` (R33). -/
abbrev Font := Vector Byte 80

/-- The default font as a value of the parameter (R33, log 3). -/
def defaultFont : Font := Vector.ofFn fun k : Fin 80 => resetByte k.val

/-- `initialize` with the font table `f` (R270, R36): the font at addresses 0 to 79, every other byte of memory zero. -/
def initializeOp (f : Font) : State := { State.reset with mem := Memory.putBytes [] 0 f.toList }

/-- `reset` (R271): the machine that `initialize` makes, whatever the machine was; it acts on a faulted one too. The
input of the coming step is none of the machine's state and is not its to reset (R35, log 2). -/
def resetOp (f : Font) (s : State) : State := { s with machine := (initializeOp f).machine }

/-- An operation that a faulted machine does not perform: it returns at once (R234). -/
def State.unlessFaulted (s : State) (t : State) : State :=
  match s.fault with
  | some _ => s
  | none => t

/-- `load(bytes)` (R211): all or nothing at 0x200; memory only. -/
def loadOp (bytes : List Byte) (s : State) : State :=
  s.unlessFaulted
    (if bytes.length > Config.maxImage then s.raise .imageTooLarge
     else { s with mem := Memory.putBytes s.mem Config.progBase bytes })

/-- `set_key(index, pressed)` (R212): `index` is any integer. -/
def setKeyOp (index : Int) (pressed : Bool) (s : State) : State :=
  s.unlessFaulted
    (if h : 0 ≤ index ∧ index ≤ 15 then { s with key := s.key.set index.toNat pressed (by omega) }
     else s.raise .invalidKeyIndex)

/-- Timer decay: `t − 1` when `t > 0`, else 0 (R12, R213). -/
def decay (t : Byte) : Byte := if t = 0 then 0 else t - 1

/-- `tick_timers` (R213). -/
def tickTimersOp (s : State) : State := s.unlessFaulted { s with dt := decay s.dt, st := decay s.st }

/-- `step(rnd)` (R120): a function of the eleven components and of one byte, its only input (R35, R126). -/
def stepWith (rnd : Byte) (m : MachineState) : Host.Outcome MachineState Fault Refusal :=
  match step { machine := m, rnd := { given := some rnd, drawn := 0 } } with
  | .next t => .next t.machine
  | .fault e => .fault e
  | .refused r => .refused r

/-- `step(rnd)` as an operation of the host (R120): on a faulted machine it changes nothing (R125). -/
def stepOp (rnd : Byte) (s : State) : State :=
  match stepWith rnd s.machine with
  | .next m => { s with machine := m }
  | .fault _ => s
  | .refused _ => s

/-- `read_framebuffer` (R214): entry `p` is the pixel at column `p mod 64`, row `p / 64`. -/
def readFramebuffer (s : State) : Vector Bool 2048 := Vector.ofFn fun p => s.pixel p

/-- The sound port (R215). -/
def soundPort (s : State) : Byte := s.st

/-- The fault port (R216, R231): 0 for none, or the code of the first fatal error. -/
def faultPort (s : State) : Nat :=
  match s.fault with
  | none => 0
  | some e => e.code

/-- The operations by which the host changes the machine (R210). -/
inductive HostOp where
  /-- `reset` (R271). -/
  | reset
  /-- `load` (R211). -/
  | load (bytes : List Byte)
  /-- `step(rnd)` (R120), with the byte that the host draws for it, any of the 256 (R126). -/
  | step (rnd : Byte)
  /-- `tick_timers` (R213). -/
  | tickTimers
  /-- `set_key` (R212). -/
  | setKey (index : Int) (pressed : Bool)
deriving DecidableEq, Repr

/-- One host operation on a machine built with the font `f`. -/
def perform (f : Font) (o : HostOp) (s : State) : State :=
  match o with
  | .reset => resetOp f s
  | .load bytes => loadOp bytes s
  | .step rnd => stepOp rnd s
  | .tickTimers => tickTimersOp s
  | .setKey index pressed => setKeyOp index pressed s

/-- A run (R210): operations the host chooses, in its order, from the state `s`. -/
def performAll (f : Font) : List HostOp → State → State
  | [], s => s
  | o :: os, s => performAll f os (perform f o s)

end Sys2Proof.Machine
end

