-- ==== Sys2Proof/WellFormed.lean ====
section
/-! DEFINITION. Which instruction terms are well formed. Every operand field admits every value of its type (R21, R93),
so the one check is on the fall-through row: it stands for the words that no row of the opcode map selects (R100). -/

namespace Sys2Proof

/-- No row of R96 selects the word: it is one of the undefined words of R100 and R101. -/
def noRowSelects (w : Word) : Bool := opcodeMap.all fun r => decide (w &&& r.mask ≠ r.pat)

/-- The instruction is well formed: an `undefinedNop` carries a word that no row selects; every other term is. -/
def Instr.wellFormed : Instr → Bool
  | .undefinedNop w => noRowSelects w
  | .cls | .ret | .jp _ | .call _ | .seImm _ _ | .sneImm _ _ | .seReg _ _ | .ldImm _ _ | .addImm _ _ | .ldReg _ _
  | .orReg _ _ | .andReg _ _ | .xorReg _ _ | .addReg _ _ | .sub _ _ | .shr _ _ | .subn _ _ | .shl _ _
  | .sneReg _ _ | .ldI _ | .jpV0 _ | .rnd _ _ | .drw _ _ _ | .skp _ | .sknp _ | .ldVxDt _ | .ldVxK _
  | .ldDtVx _ | .ldStVx _ | .addI _ | .ldF _ | .ldB _ | .ldMemVx _ | .ldVxMem _ => true

end Sys2Proof
end

