-- ==== Sys2Proof/Safety.lean ====
section
/-! DEFINITION. The terms in which claims are stated: healthy and finished states, the invariants, the components of the
state (R20) and frames over them, the access matrix (R37), and the table of what a step can raise
(spec/40_step_fetch_decode.md section 4). -/

namespace Sys2Proof.Machine

/-! ## States and runs -/

/-- No fatal error has been raised (R34). -/
abbrev State.healthy (s : State) : Prop := s.fault = none

/-- A run of host operations is safe when no operation of it has latched a fault at its end; the latch is sticky
(R234), so none was latched on the way since the last reset. -/
abbrev safeRun (f : Font) (os : List HostOp) : Prop := (performAll f os (initializeOp f)).healthy

/-- The word that the next fetch reads (R61). -/
def State.nextWord (s : State) : Word := wordOfBytes (s.byteAt s.pc.toNat) (s.byteAt (s.pc.toNat + 1))

/-- The next step can fetch: no fault is latched and `PC + 1` is inside memory (R121). -/
abbrev State.canFetch (s : State) : Prop := s.fault = none ∧ s.pc.toNat ≤ 0xFFE

/-- The end-of-run convention of R283: a `JP` to its own address at `PC`, and no fault. -/
abbrev State.finished (s : State) : Prop := s.canFetch ∧ decodeWord s.nextWord = .jp (s.pc.setWidth 12)

/-! ## Invariants -/

/-- Memory is in canonical form: rising addresses below 4096 (R32), no entry equal to the reset contents. The form is
the model's representation of memory, no rule of the spec (log 10). -/
abbrev State.memoryCanonical (s : State) : Prop := Memory.wf s.mem

/-- `PC` stays within 0 to 0x10FE (R24), and every stack slot holds at most 0x1000 (R133: a pushed value is at most
0x1000). -/
abbrev State.countersInRange (s : State) : Prop := s.pc.toNat ≤ 0x10FE ∧ ∀ k : Fin 16, s.stack[k].toNat ≤ 0x1000

/-- What holds of every state that a run reaches: the form of memory, which is the model's (log 10), and the ranges of
R24 and R133. -/
abbrev State.Inv (s : State) : Prop := s.memoryCanonical ∧ s.countersInRange

/-- The table of reset values, R36, for a font table `f`. -/
def State.atReset (f : Font) (s : State) : Prop :=
  s.pc = 0x200 ∧ (∀ j, s.reg j = 0) ∧ (∀ a, s.byteAt a = if h : a < 80 then f[a] else 0) ∧
  (∀ k : Fin 16, s.stack[k] = 0) ∧ (∀ p, s.pixel p = false) ∧ (∀ k : Fin 16, s.key[k] = false) ∧
  s.i = 0 ∧ s.sp = 0 ∧ s.dt = 0 ∧ s.st = 0 ∧ s.fault = none

/-! ## Components and frames -/

/-- The components of the machine (R20; the stack with its pointer). -/
inductive Part where
  | regs | pc | i | stack | dt | st | key | fb | mem | fault
deriving DecidableEq, Repr

/-- The component reads the same in both states: every register, slot, key, pixel and byte of it. -/
def Same : Part → State → State → Prop
  | .regs, s, t => ∀ j, t.reg j = s.reg j
  | .pc, s, t => t.pc = s.pc
  | .i, s, t => t.i = s.i
  | .stack, s, t => t.sp = s.sp ∧ ∀ k : Fin 16, t.stack[k] = s.stack[k]
  | .dt, s, t => t.dt = s.dt
  | .st, s, t => t.st = s.st
  | .key, s, t => ∀ k : Fin 16, t.key[k] = s.key[k]
  | .fb, s, t => ∀ p, t.pixel p = s.pixel p
  | .mem, s, t => ∀ a, t.byteAt a = s.byteAt a
  | .fault, s, t => t.fault = s.fault

/-- Every component outside `changed` is unchanged from `s` to `t`. -/
def Frame (changed : List Part) (s t : State) : Prop := ∀ p, p ∉ changed → Same p s t

/-- Every register outside `ds` is unchanged. -/
def RegsOutside (ds : List Reg) (s t : State) : Prop := ∀ j, j ∉ ds → t.reg j = s.reg j

/-- Every byte of memory outside the `n` bytes at `a` reads as before. -/
def MemoryOutside (a n : Nat) (s t : State) : Prop := ∀ b, b < a ∨ a + n ≤ b → t.byteAt b = s.byteAt b

/-- The components that an instruction's execute phase may write (R37; the latch for the instructions that can
raise, R230). -/
def writes : Instr → List Part
  | .cls => [.fb]
  | .ret => [.pc, .stack, .fault]
  | .jp _ => [.pc]
  | .call _ => [.pc, .stack, .fault]
  | .seImm _ _ => [.pc]
  | .sneImm _ _ => [.pc]
  | .seReg _ _ => [.pc]
  | .ldImm _ _ => [.regs]
  | .addImm _ _ => [.regs]
  | .ldReg _ _ => [.regs]
  | .orReg _ _ => [.regs]
  | .andReg _ _ => [.regs]
  | .xorReg _ _ => [.regs]
  | .addReg _ _ => [.regs]
  | .sub _ _ => [.regs]
  | .shr _ _ => [.regs]
  | .subn _ _ => [.regs]
  | .shl _ _ => [.regs]
  | .sneReg _ _ => [.pc]
  | .ldI _ => [.i]
  | .jpV0 _ => [.pc]
  | .rnd _ _ => [.regs]
  | .drw _ _ _ => [.regs, .fb, .fault]
  | .skp _ => [.pc, .fault]
  | .sknp _ => [.pc, .fault]
  | .ldVxDt _ => [.regs]
  | .ldVxK _ => [.regs, .pc]
  | .ldDtVx _ => [.dt]
  | .ldStVx _ => [.st]
  | .addI _ => [.i]
  | .ldF _ => [.i]
  | .ldB _ => [.mem, .fault]
  | .ldMemVx _ => [.mem, .fault]
  | .ldVxMem _ => [.regs, .fault]
  | .undefinedNop _ => []

/-- The instruction writes `VF` as a flag: exactly the seven of R22. -/
def writesFlag : Instr → Bool
  | .addImm _ _ | .addReg _ _ | .sub _ _ | .subn _ _ | .shr _ _ | .shl _ _ | .drw _ _ _ => true
  | .cls | .ret | .jp _ | .call _ | .seImm _ _ | .sneImm _ _ | .seReg _ _ | .ldImm _ _ | .ldReg _ _ | .orReg _ _
  | .andReg _ _ | .xorReg _ _ | .sneReg _ _ | .ldI _ | .jpV0 _ | .rnd _ _ | .skp _ | .sknp _ | .ldVxDt _
  | .ldVxK _ | .ldDtVx _ | .ldStVx _ | .addI _ | .ldF _ | .ldB _ | .ldMemVx _ | .ldVxMem _ | .undefinedNop _ => false

/-- Register `j` is an ordinary destination of the instruction: its `X` field, or, for FX65, up to it (R22, R37). -/
def isDestination : Instr → Reg → Bool
  | .ldImm x _, j | .addImm x _, j | .ldReg x _, j | .orReg x _, j | .andReg x _, j | .xorReg x _, j
  | .addReg x _, j | .sub x _, j | .shr x _, j | .subn x _, j | .shl x _, j | .rnd x _, j | .ldVxDt x, j
  | .ldVxK x, j => decide (j = x)
  | .ldVxMem x, j => decide (j ≤ x)
  | .cls, _ | .ret, _ | .jp _, _ | .call _, _ | .seImm _ _, _ | .sneImm _ _, _ | .seReg _ _, _ | .sneReg _ _, _
  | .ldI _, _ | .jpV0 _, _ | .drw _ _ _, _ | .skp _, _ | .sknp _, _ | .ldDtVx _, _ | .ldStVx _, _ | .addI _, _
  | .ldF _, _ | .ldB _, _ | .ldMemVx _, _ | .undefinedNop _, _ => false

/-! ## What an execute phase can raise -/

/-- The table of spec/40_step_fetch_decode.md section 4, less the fetch: the error an instruction raises in a state, as
the rules R130, R131, R180, R190, R191, R200, R201, R202 state the conditions. -/
def raises (i : Instr) (s : State) : Option FatalError :=
  match i with
  | .call _ => if s.sp.val = 16 then some .stackOverflow else none
  | .ret => if s.sp.val = 0 then some .stackUnderflow else none
  | .drw _ _ n => if 1 ≤ n.val ∧ s.i.toNat + n.val - 1 > 0xFFF then some .memoryOutOfBounds else none
  | .skp x => if (s.reg x).toNat > 15 then some .invalidKeyIndex else none
  | .sknp x => if (s.reg x).toNat > 15 then some .invalidKeyIndex else none
  | .ldB _ => if s.i.toNat + 2 > 0xFFF then some .memoryOutOfBounds else none
  | .ldMemVx x => if s.i.toNat + x.val > 0xFFF then some .memoryOutOfBounds else none
  | .ldVxMem x => if s.i.toNat + x.val > 0xFFF then some .memoryOutOfBounds else none
  | .cls | .jp _ | .seImm _ _ | .sneImm _ _ | .seReg _ _ | .ldImm _ _ | .addImm _ _ | .ldReg _ _ | .orReg _ _
  | .andReg _ _ | .xorReg _ _ | .addReg _ _ | .sub _ _ | .shr _ _ | .subn _ _ | .shl _ _ | .sneReg _ _ | .ldI _
  | .jpV0 _ | .rnd _ _ | .ldVxDt _ | .ldVxK _ | .ldDtVx _ | .ldStVx _ | .addI _ | .ldF _ | .undefinedNop _ => none

/-- Row byte `r` of the sprite at `I` has a set bit in a column `c` whose cell, `((V[X] + c) mod 64) + 64·((V[Y] + r)
mod 32)`, is `p`: the draw toggles `p` (R182). -/
def covers (s : State) (x y : Reg) (n : Fin 16) (p : Fin 2048) : Prop :=
  ∃ r c : Nat, r < n.val ∧ c < 8 ∧ (s.byteAt (s.i.toNat + r)).getLsbD (7 - c) = true ∧
    p.val = ((s.reg x).toNat + c) % 64 + 64 * (((s.reg y).toNat + r) % 32)

end Sys2Proof.Machine
end

