-- ==== Sys2Proof/Certificates/Slice0/Obligations.lean ====
section
/-! DEFINITION. The statements for the provers. Where a statement rests on a decision of the spec's own
(spec/92_eei_decisions.md, "D<n>"), on general knowledge the spec supplies or on a choice of this model, its docstring
names it; its basis is then 'derived'. -/

open Sys2Proof Sys2Proof.Machine

/-! ## Reset -/

/-- R36, R270, R271: `initialize`, and `reset` from any state, leave every component at its reset value, for every font
table. The zeros of `I`, `SP`, `DT`, `ST` are decision D11, the fault latch D9, the font parameter D12. -/
def Obligations.InitializeAndResetGiveTheResetState : Prop :=
  ∀ (f : Font) (s : State), State.atReset f (initializeOp f) ∧ State.atReset f (perform f .reset s)

/-- The model's choice (log 3): `State.reset` is the state of `initialize` with the conventional font, which R33 gives as
general knowledge. -/
def Obligations.ResetIsInitializeWithDefaultFont : Prop := initializeOp defaultFont = State.reset

/-- The invariants hold right after reset: `PC` and the stack slots in the ranges of R24 and R133, and memory in
canonical form. The canonical form is the model's choice (log 10), not the spec's. -/
def Obligations.ResetSatisfiesInvariants : Prop := State.Inv State.reset

/-! ## Encoding and decoding -/

/-- R5: `X = w[11:8]`, `Y = w[7:4]`, `N = w[3:0]`, `KK = w[7:0]`, `NNN = w[11:0]`, bit 0 the least significant. -/
def Obligations.FieldsStandAtTheirBitPositions : Prop :=
  ∀ w : Word, (fieldX w).val = w.toNat / 256 % 16 ∧ (fieldY w).val = w.toNat / 16 % 16 ∧
    (fieldN w).val = w.toNat % 16 ∧ (fieldKK w).toNat = w.toNat % 256 ∧ (fieldNNN w).toNat = w.toNat % 4096

/-- Decoding the word of a well-formed instruction gives it back, with every operand at every value. -/
def Obligations.DecodeOfEncodeIsIdentity : Prop :=
  ∀ i : Instr, i.wellFormed = true → decodeWord (encode i) = i

/-- Every word has one meaning: encoding what it decodes to gives the word back, and that instruction is well formed. -/
def Obligations.EncodeOfDecodeIsIdentity : Prop :=
  ∀ w : Word, encode (decodeWord w) = w ∧ (decodeWord w).wellFormed = true

/-- R94: a word decodes to the instruction of the row that selects it; no two rows select one word; a word that no row
selects decodes to the no-op. -/
def Obligations.DecodeFollowsTheOpcodeMap : Prop :=
  ∀ w : Word,
    (∀ r ∈ opcodeMap, r.selects w → (decodeWord w).mnemonic = r.mnemonic) ∧
    (∀ r ∈ opcodeMap, ∀ q ∈ opcodeMap, r.selects w → q.selects w → r = q) ∧
    ((∀ r ∈ opcodeMap, ¬ r.selects w) → decodeWord w = .undefinedNop w)

/-- The undefined space of R101, group by group. It rests on the general-knowledge patterns (R97) and on decision D3. -/
def Obligations.UndefinedWordsAreTheListedGroups : Prop :=
  ∀ w : Word, decodeWord w = .undefinedNop w ↔
    (w.toNat / 4096 = 0x0 ∧ w.toNat ≠ 0x00E0 ∧ w.toNat ≠ 0x00EE) ∨
    (w.toNat / 4096 = 0x5 ∧ w.toNat % 16 ≠ 0) ∨
    (w.toNat / 4096 = 0x8 ∧ w.toNat % 16 ∈ [0x8, 0x9, 0xA, 0xB, 0xC, 0xD, 0xF]) ∨
    (w.toNat / 4096 = 0x9 ∧ w.toNat % 16 ≠ 0) ∨
    (w.toNat / 4096 = 0xE ∧ w.toNat % 256 ≠ 0x9E ∧ w.toNat % 256 ≠ 0xA1) ∨
    (w.toNat / 4096 = 0xF ∧ w.toNat % 256 ∉ [0x07, 0x0A, 0x15, 0x18, 0x1E, 0x29, 0x33, 0x55, 0x65])

/-- Words written out from the patterns of R96, at least one of each of its §4.4 groups, and one undefined word, decode to
what they stand for. All but the patterns of DXYN, FX0A, FX33, FX55 and FX65 are the spec's general knowledge (PRESUMED,
log 4); that 0x5121 is a no-op is decision D3. -/
def Obligations.SampleWordsDecode : Prop :=
  decodeWord 0x00E0 = .cls ∧ decodeWord 0x2ABC = .call 0xABC ∧ decodeWord 0x332A = .seImm 3 0x2A ∧
  decodeWord 0x9120 = .sneReg 1 2 ∧ decodeWord 0x7201 = .addImm 2 0x01 ∧ decodeWord 0x8127 = .subn 1 2 ∧
  decodeWord 0x8126 = .shr 1 2 ∧ decodeWord 0x812E = .shl 1 2 ∧ decodeWord 0xA2F0 = .ldI 0x2F0 ∧
  decodeWord 0xF21E = .addI 2 ∧ decodeWord 0xF315 = .ldDtVx 3 ∧ decodeWord 0xF255 = .ldMemVx 2 ∧
  decodeWord 0xF265 = .ldVxMem 2 ∧ decodeWord 0xC30F = .rnd 3 0x0F ∧ decodeWord 0xD345 = .drw 3 4 5 ∧ decodeWord 0xE5A1 = .sknp 5 ∧
  decodeWord 0xF40A = .ldVxK 4 ∧ decodeWord 0xF233 = .ldB 2 ∧ decodeWord 0x5121 = .undefinedNop 0x5121

/-! ## The step -/

/-- R61: the word fetched is `256·MEM[PC] + MEM[PC+1]`, its opcode nibble the high nibble of the byte at the lower
address; the step is the execute phase of the instruction it decodes to, on the state with `PC` two higher. -/
def Obligations.StepRunsTheBigEndianWordAtPc : Prop :=
  ∀ s : State, s.fault = none → s.pc.toNat ≤ 0xFFE →
    ∃ w : Word, w.toNat = 256 * (s.byteAt s.pc.toNat).toNat + (s.byteAt (s.pc.toNat + 1)).toNat ∧
      (nibble w 12).val = (s.byteAt s.pc.toNat).toNat / 16 ∧
      step s = exec (decodeWord w) (s.setPc (s.pc + 2))

/-- A step runs the instruction whose word stands at `PC`: for every well-formed instruction `i` whose encoding is there,
the step is `exec i` on the state with `PC` two higher (R120 to R123). -/
def Obligations.StepRunsTheEncodedInstruction : Prop :=
  ∀ (i : Instr) (s : State), i.wellFormed = true → s.fault = none → s.pc.toNat ≤ 0xFFE →
    wordOfBytes (s.byteAt s.pc.toNat) (s.byteAt (s.pc.toNat + 1)) = encode i →
    step s = exec i (s.setPc (s.pc + 2))

/-- R121: at `PC ≥ 0xFFF` the fetch raises, `PC` stays, and nothing but the latch is written (decision D9). -/
def Obligations.FetchOutOfBoundsLatchesTheError : Prop :=
  ∀ s : State, s.fault = none → 0xFFF ≤ s.pc.toNat →
    ∃ t, step s = .next t ∧ t.fault = some .memoryOutOfBounds ∧ Frame [.fault] s t

/-- R124: a step on a word that no row of the opcode map selects advances the counter by exactly 2 and changes nothing
else; the execute phase of such a word is nothing, in every state. -/
def Obligations.UndefinedWordOnlyAdvancesPc : Prop :=
  (∀ s : State, s.fault = none → s.pc.toNat ≤ 0xFFE →
    (∀ r ∈ opcodeMap, ¬ r.selects (wordOfBytes (s.byteAt s.pc.toNat) (s.byteAt (s.pc.toNat + 1)))) →
    ∃ t, step s = .next t ∧ t.pc.toNat = s.pc.toNat + 2 ∧ Frame [.pc] s t) ∧
  (∀ (w : Word) (s : State), ∃ t, exec (.undefinedNop w) s = .next t ∧ Frame [] s t)

/-- R120, R125, R234: a step answers a next state exactly when no fault is latched, is never refused, and on a faulted
machine stops with the latched error. That the faulted state has no step is decision D20. -/
def Obligations.StepHasNextExactlyWithoutFault : Prop :=
  ∀ s : State, ((∃ t, step s = .next t) ↔ s.fault = none) ∧
    (∀ e, s.fault = some e → step s = .fault (.faulted e)) ∧ ∀ r, step s ≠ .refused r

/-! ## Control flow -/

/-- R132: `1NNN` sets `PC` to `NNN`, for every target, and writes nothing else. -/
def Obligations.JumpSetsPcToTarget : Prop :=
  ∀ (nnn : Addr) (s : State), ∃ t, exec (.jp nnn) s = .next t ∧ t.pc.toNat = nnn.toNat ∧ Frame [.pc] s t

/-- R135: `BNNN` sets `PC` to the exact sum `V[0] + NNN`, not reduced to 12 bits. -/
def Obligations.IndexedJumpAddsV0Exactly : Prop :=
  ∀ (nnn : Addr) (s : State),
    ∃ t, exec (.jpV0 nnn) s = .next t ∧ t.pc.toNat = (s.reg 0).toNat + nnn.toNat ∧ Frame [.pc] s t

/-- R130, R133: below 16 live entries `2NNN` puts the advanced `PC` in the next free slot, increments `SP` and jumps. -/
def Obligations.CallPushesTheAdvancedPc : Prop :=
  ∀ (nnn : Addr) (s : State), s.sp.val < 16 →
    ∃ t, exec (.call nnn) s = .next t ∧ t.pc.toNat = nnn.toNat ∧ t.sp.val = s.sp.val + 1 ∧
      (∀ k : Fin 16, t.stack[k] = if k.val = s.sp.val then s.pc else s.stack[k]) ∧ Frame [.pc, .stack] s t

/-- R131, R134: with a live entry `00EE` decrements `SP` and goes to the value of the slot it now points at; no slot is
erased (decision D19). -/
def Obligations.ReturnPopsTheTopSlot : Prop :=
  ∀ s : State, s.sp.val ≠ 0 →
    ∃ t, exec .ret s = .next t ∧ t.sp.val + 1 = s.sp.val ∧
      (∀ k : Fin 16, k.val + 1 = s.sp.val → t.pc = s.stack[k]) ∧
      (∀ k : Fin 16, t.stack[k] = s.stack[k]) ∧ Frame [.pc, .stack] s t

/-- R130, R131, R133, R134: a call on the full stack and a return on the empty one latch their errors and write nothing
else (decision D9). -/
def Obligations.StackErrorsAreLatchedPrecisely : Prop :=
  (∀ (nnn : Addr) (s : State), s.sp.val = 16 →
    ∃ t, exec (.call nnn) s = .next t ∧ t.fault = some .stackOverflow ∧ Frame [.fault] s t) ∧
  (∀ s : State, s.sp.val = 0 →
    ∃ t, exec .ret s = .next t ∧ t.fault = some .stackUnderflow ∧ Frame [.fault] s t)

/-- R134: a return undoes a call: from any state with the stack that the call left, it goes to the instruction after the
call and restores `SP`. -/
def Obligations.ReturnUndoesCall : Prop :=
  ∀ (nnn : Addr) (s t u : State), s.sp.val < 16 → exec (.call nnn) s = .next t → Same .stack t u →
    ∃ v, exec .ret u = .next v ∧ v.pc = s.pc ∧ v.sp = s.sp

/-! ## Skips -/

/-- R140, R141: the skips on an immediate add 2 to the advanced `PC` when the comparison holds, and write nothing else;
every register is tested alike. -/
def Obligations.ImmediateSkipsTestEquality : Prop :=
  ∀ (x : Reg) (kk : Byte) (s : State),
    (∃ t, exec (.seImm x kk) s = .next t ∧ t.pc = (if s.reg x = kk then s.pc + 2 else s.pc) ∧ Frame [.pc] s t) ∧
    (∃ t, exec (.sneImm x kk) s = .next t ∧ t.pc = (if s.reg x = kk then s.pc else s.pc + 2) ∧ Frame [.pc] s t)

/-- R142, R143: the skips on two registers; with `X = Y` the first always skips and the second never. -/
def Obligations.RegisterSkipsTestEquality : Prop :=
  ∀ (x y : Reg) (s : State),
    (∃ t, exec (.seReg x y) s = .next t ∧ t.pc = (if s.reg x = s.reg y then s.pc + 2 else s.pc) ∧ Frame [.pc] s t) ∧
    (∃ t, exec (.sneReg x y) s = .next t ∧ t.pc = (if s.reg x = s.reg y then s.pc else s.pc + 2) ∧ Frame [.pc] s t)

/-! ## Moves and logic -/

/-- R150: `6XKK` writes `KK` to `V[X]`, `VF` included, and nothing else. -/
def Obligations.LoadImmediateWritesOneRegister : Prop :=
  ∀ (x : Reg) (kk : Byte) (s : State),
    ∃ t, exec (.ldImm x kk) s = .next t ∧ t.reg x = kk ∧ RegsOutside [x] s t ∧ Frame [.regs] s t

/-- R152: `8XY0` copies `V[Y]` to `V[X]`, and writes nothing else. -/
def Obligations.RegisterMoveCopies : Prop :=
  ∀ (x y : Reg) (s : State),
    ∃ t, exec (.ldReg x y) s = .next t ∧ t.reg x = s.reg y ∧ RegsOutside [x] s t ∧ Frame [.regs] s t

/-- R153, R154, R155: OR, AND and XOR, bit by bit, into `V[X]`; `VF` is not written as a flag (decision D6). -/
def Obligations.LogicIsBitwiseAndKeepsVF : Prop :=
  ∀ (x y : Reg) (s : State),
    (∃ t, exec (.orReg x y) s = .next t ∧ RegsOutside [x] s t ∧ Frame [.regs] s t ∧
      ∀ b < 8, (t.reg x).getLsbD b = ((s.reg x).getLsbD b || (s.reg y).getLsbD b)) ∧
    (∃ t, exec (.andReg x y) s = .next t ∧ RegsOutside [x] s t ∧ Frame [.regs] s t ∧
      ∀ b < 8, (t.reg x).getLsbD b = ((s.reg x).getLsbD b && (s.reg y).getLsbD b)) ∧
    (∃ t, exec (.xorReg x y) s = .next t ∧ RegsOutside [x] s t ∧ Frame [.regs] s t ∧
      ∀ b < 8, (t.reg x).getLsbD b = ((s.reg x).getLsbD b ^^ (s.reg y).getLsbD b))

/-! ## Carry arithmetic and shifts -/

/-- R151, R160: both adds leave the sum modulo 256 in `V[X]` and the carry, 0 or 1, in `VF`; with `X = 0xF` the carry is
what remains (the write order of R38 is decision D4). -/
def Obligations.AddsWriteSumThenCarry : Prop :=
  ∀ (x y : Reg) (kk : Byte) (s : State),
    (∃ t, exec (.addImm x kk) s = .next t ∧
      t.reg VF = (if (s.reg x).toNat + kk.toNat > 255 then 1 else 0) ∧
      (x ≠ VF → (t.reg x).toNat = ((s.reg x).toNat + kk.toNat) % 256) ∧
      RegsOutside [x, VF] s t ∧ Frame [.regs] s t) ∧
    (∃ t, exec (.addReg x y) s = .next t ∧
      t.reg VF = (if (s.reg x).toNat + (s.reg y).toNat > 255 then 1 else 0) ∧
      (x ≠ VF → (t.reg x).toNat = ((s.reg x).toNat + (s.reg y).toNat) % 256) ∧
      RegsOutside [x, VF] s t ∧ Frame [.regs] s t)

/-- R161, R162: both subtractions leave the difference, plus 256 when it would be negative, in `V[X]`, and 1 in `VF`
exactly when there is no borrow; equal operands give 0 and 1; with `X = 0xF` the flag remains (D4). -/
def Obligations.SubtractsWriteDifferenceThenNoBorrow : Prop :=
  ∀ (x y : Reg) (s : State),
    (∃ t, exec (.sub x y) s = .next t ∧
      t.reg VF = (if (s.reg x).toNat ≥ (s.reg y).toNat then 1 else 0) ∧
      (x ≠ VF → (t.reg x).toNat =
        if (s.reg x).toNat ≥ (s.reg y).toNat then (s.reg x).toNat - (s.reg y).toNat
        else (s.reg x).toNat + 256 - (s.reg y).toNat) ∧
      RegsOutside [x, VF] s t ∧ Frame [.regs] s t) ∧
    (∃ t, exec (.subn x y) s = .next t ∧
      t.reg VF = (if (s.reg y).toNat ≥ (s.reg x).toNat then 1 else 0) ∧
      (x ≠ VF → (t.reg x).toNat =
        if (s.reg y).toNat ≥ (s.reg x).toNat then (s.reg y).toNat - (s.reg x).toNat
        else (s.reg y).toNat + 256 - (s.reg x).toNat) ∧
      RegsOutside [x, VF] s t ∧ Frame [.regs] s t)

/-- R163, R164: the shifts work on `V[X]` in place, whatever the `Y` field is; the right shift's flag is the old bit 0,
the left shift's the old bit 3 (mask 0x08), written as 0 or 1 (D5) and last (D4). -/
def Obligations.ShiftsFlagBitZeroAndBitThree : Prop :=
  ∀ (x y : Reg) (s : State),
    (∃ t, exec (.shr x y) s = .next t ∧ t.reg VF = (if (s.reg x).toNat % 2 = 1 then 1 else 0) ∧
      (x ≠ VF → (t.reg x).toNat = (s.reg x).toNat / 2) ∧ RegsOutside [x, VF] s t ∧ Frame [.regs] s t) ∧
    (∃ t, exec (.shl x y) s = .next t ∧ t.reg VF = (if (s.reg x).toNat / 8 % 2 = 1 then 1 else 0) ∧
      (x ≠ VF → (t.reg x).toNat = 2 * (s.reg x).toNat % 256) ∧ RegsOutside [x, VF] s t ∧ Frame [.regs] s t)

/-! ## Index register and random -/

/-- R170: `ANNN` sets `I` to `NNN`, its top four bits zero, and writes nothing else. -/
def Obligations.LoadIndexSetsI : Prop :=
  ∀ (nnn : Addr) (s : State), ∃ t, exec (.ldI nnn) s = .next t ∧ t.i.toNat = nnn.toNat ∧ Frame [.i] s t

/-- R171, R172: `FX1E` adds `V[X]` to `I` modulo 65536 without a flag (D6); `FX29` sets `I` to five times the whole
`V[X]` (D7). -/
def Obligations.IndexArithmeticWritesOnlyI : Prop :=
  ∀ (x : Reg) (s : State),
    (∃ t, exec (.addI x) s = .next t ∧ t.i.toNat = (s.i.toNat + (s.reg x).toNat) % 65536 ∧ Frame [.i] s t) ∧
    (∃ t, exec (.ldF x) s = .next t ∧ t.i.toNat = 5 * (s.reg x).toNat ∧ Frame [.i] s t)

/-- R173, R126: `CXKK` writes the byte of the step's input ANDed with `KK`, so every bit that is 0 in `KK` is 0 in the
result; a `step(rnd)` that finds a `CXKK` writes `rnd AND KK`, for each of the 256 bytes; and every other instruction
ignores the input. That the input stands beside the machine, and is a free value where the host gives no byte, is the
model's form of it (log 1); the statement holds whatever that value is. -/
def Obligations.RandomWritesAMaskedDraw : Prop :=
  (∀ (x : Reg) (kk : Byte) (s : State),
    (∃ t, exec (.rnd x kk) s = .next t ∧ t.reg x = s.rnd.byte &&& kk ∧
      (∀ b < 8, kk.getLsbD b = false → (t.reg x).getLsbD b = false) ∧ RegsOutside [x] s t ∧ Frame [.regs] s t) ∧
    (s.fault = none → s.pc.toNat ≤ 0xFFE → decodeWord s.nextWord = .rnd x kk → ∀ (f : Font) (rnd : Byte),
      (perform f (.step rnd) s).reg x = rnd &&& kk ∧ (perform f (.step rnd) s).pc = s.pc + 2 ∧
      RegsOutside [x] s (perform f (.step rnd) s) ∧ Frame [.regs, .pc] s (perform f (.step rnd) s))) ∧
  (∀ (i : Instr) (s t : State) (r : StepInput), (∀ x kk, i ≠ .rnd x kk) → exec i s = .next t →
    exec i { s with rnd := r } = .next { t with rnd := r })

/-! ## Display -/

/-- R181: `00E0` unsets every pixel and writes nothing else; that `VF` is unchanged is decision D6. -/
def Obligations.ClearUnsetsEveryPixel : Prop :=
  ∀ s : State, ∃ t, exec .cls s = .next t ∧ (∀ p, t.pixel p = false) ∧ Frame [.fb] s t

/-- R180, R182: with its rows inside memory a draw toggles exactly the cells that the sprite's set bits name, wrapped on
both axes, and leaves 1 in `VF` exactly when one of them was set before. Coordinates read before `VF` and `N = 0` are
decision D21. -/
def Obligations.DrawTogglesExactlyTheSprite : Prop :=
  ∀ (x y : Reg) (n : Fin 16) (s : State), (1 ≤ n.val → s.i.toNat + n.val - 1 ≤ 0xFFF) →
    ∃ t, exec (.drw x y n) s = .next t ∧
      (∀ p, (covers s x y n p → t.pixel p = !s.pixel p) ∧ (¬ covers s x y n p → t.pixel p = s.pixel p)) ∧
      ((∃ p, covers s x y n p ∧ s.pixel p = true) → t.reg VF = 1) ∧
      ((¬ ∃ p, covers s x y n p ∧ s.pixel p = true) → t.reg VF = 0) ∧
      RegsOutside [VF] s t ∧ Frame [.regs, .fb] s t

/-- R180: drawing the same sprite twice at the same place restores every pixel. "The same place" is a hypothesis on the
coordinate registers only because the first draw overwrites `VF`, which may be one of them. -/
def Obligations.DrawingTwiceRestoresTheScreen : Prop :=
  ∀ (x y : Reg) (n : Fin 16) (s t u : State), exec (.drw x y n) s = .next t →
    t.reg x = s.reg x → t.reg y = s.reg y → exec (.drw x y n) t = .next u → Same .fb s u

/-! ## Keys and timers -/

/-- R190, R191: with an index of at most 15 the key tests skip on the level of the key at the time of the step. -/
def Obligations.KeyTestsSkipOnTheKeyLevel : Prop :=
  ∀ (x : Reg) (s : State) (h : (s.reg x).toNat < 16),
    (∃ t, exec (.skp x) s = .next t ∧
      t.pc = (if s.key[(s.reg x).toNat]'h = true then s.pc + 2 else s.pc) ∧ Frame [.pc] s t) ∧
    (∃ t, exec (.sknp x) s = .next t ∧
      t.pc = (if s.key[(s.reg x).toNat]'h = true then s.pc else s.pc + 2) ∧ Frame [.pc] s t)

/-- R190, R191, 90_conflicts.md C2: an index above 15 is never masked and never "not pressed": it latches
InvalidKeyIndex, and nothing else is written (D9). -/
def Obligations.KeyTestsAboveFifteenRaise : Prop :=
  ∀ (x : Reg) (s : State), (s.reg x).toNat > 15 →
    (∃ t, exec (.skp x) s = .next t ∧ t.fault = some .invalidKeyIndex ∧ Frame [.fault] s t) ∧
    (∃ t, exec (.sknp x) s = .next t ∧ t.fault = some .invalidKeyIndex ∧ Frame [.fault] s t)

/-- R192, R193, R194: the three timer moves, each writing its destination and nothing else. -/
def Obligations.TimerMovesCopyWholeBytes : Prop :=
  ∀ (x : Reg) (s : State),
    (∃ t, exec (.ldVxDt x) s = .next t ∧ t.reg x = s.dt ∧ RegsOutside [x] s t ∧ Frame [.regs] s t) ∧
    (∃ t, exec (.ldDtVx x) s = .next t ∧ t.dt = s.reg x ∧ Frame [.dt] s t) ∧
    (∃ t, exec (.ldStVx x) s = .next t ∧ t.st = s.reg x ∧ Frame [.st] s t)

/-- R195, execute phase: with a key down, `FX0A` writes the least pressed index to `V[X]` and proceeds; with none, it
takes 2 from the advanced counter and writes nothing else. -/
def Obligations.KeyWaitTakesTheLowestKeyOrRewinds : Prop :=
  ∀ (x : Reg) (s : State),
    (∀ k : Fin 16, s.key[k] = true → (∀ j : Fin 16, j < k → s.key[j] = false) →
      ∃ t, exec (.ldVxK x) s = .next t ∧ (t.reg x).toNat = k.val ∧ RegsOutside [x] s t ∧ Frame [.regs] s t) ∧
    ((∀ k : Fin 16, s.key[k] = false) →
      ∃ t, exec (.ldVxK x) s = .next t ∧ t.pc = s.pc - 2 ∧ Frame [.pc] s t)

/-- R195: a step that finds an `FX0A` and no key pressed leaves the whole state exactly as it was. -/
def Obligations.WaitingStepLeavesTheWholeState : Prop :=
  ∀ (x : Reg) (s : State), s.fault = none → s.pc.toNat ≤ 0xFFE → decodeWord s.nextWord = .ldVxK x →
    (∀ k : Fin 16, s.key[k] = false) → step s = .next s

/-! ## Memory instructions -/

/-- R200: `FX33` stores hundreds, tens and ones of `V[X]` at `I`, `I + 1`, `I + 2`, each digit in a byte of its own, and
writes no other byte and nothing else. -/
def Obligations.BcdStoresThreeDigits : Prop :=
  ∀ (x : Reg) (s : State), s.i.toNat + 2 ≤ 0xFFF →
    ∃ t, exec (.ldB x) s = .next t ∧
      (t.byteAt s.i.toNat).toNat = (s.reg x).toNat / 100 ∧
      (t.byteAt (s.i.toNat + 1)).toNat = (s.reg x).toNat / 10 % 10 ∧
      (t.byteAt (s.i.toNat + 2)).toNat = (s.reg x).toNat % 10 ∧
      MemoryOutside s.i.toNat 3 s t ∧ Frame [.mem] s t

/-- R201: `FX55` stores `V[0]` to `V[X]` at `I` to `I + X`, and writes no other byte and nothing else, `I` included. -/
def Obligations.BlockStoreCopiesRegisters : Prop :=
  ∀ (x : Reg) (s : State), s.i.toNat + x.val ≤ 0xFFF →
    ∃ t, exec (.ldMemVx x) s = .next t ∧ (∀ j : Reg, j ≤ x → t.byteAt (s.i.toNat + j.val) = s.reg j) ∧
      MemoryOutside s.i.toNat (x.val + 1) s t ∧ Frame [.mem] s t

/-- R202: `FX65` loads `V[0]` to `V[X]` from `I` to `I + X`; the registers above, memory and `I` are unchanged. -/
def Obligations.BlockLoadCopiesMemory : Prop :=
  ∀ (x : Reg) (s : State), s.i.toNat + x.val ≤ 0xFFF →
    ∃ t, exec (.ldVxMem x) s = .next t ∧ (∀ j : Reg, j ≤ x → t.reg j = s.byteAt (s.i.toNat + j.val)) ∧
      (∀ j : Reg, x < j → t.reg j = s.reg j) ∧ Frame [.regs] s t

/-- R202, the source's property: a block load after a block store at the same `I` and `X` restores the registers
exactly, whatever happened to the registers in between. -/
def Obligations.BlockRoundTripRestoresRegisters : Prop :=
  ∀ (x : Reg) (s t u : State), s.i.toNat + x.val ≤ 0xFFF → exec (.ldMemVx x) s = .next t →
    Same .mem t u → Same .i t u →
    ∃ v, exec (.ldVxMem x) u = .next v ∧ ∀ j : Reg, j ≤ x → v.reg j = s.reg j

/-- R68, R180, R200, R201, R202: an access that would reach an address of 4096 or more latches MemoryOutOfBounds and
writes nothing else; `I + k` is never wrapped (D8, D9). -/
def Obligations.OutOfBoundsAccessesWriteNothing : Prop :=
  ∀ (x y : Reg) (n : Fin 16) (s : State),
    (1 ≤ n.val ∧ s.i.toNat + n.val - 1 > 0xFFF →
      ∃ t, exec (.drw x y n) s = .next t ∧ t.fault = some .memoryOutOfBounds ∧ Frame [.fault] s t) ∧
    (s.i.toNat + 2 > 0xFFF →
      ∃ t, exec (.ldB x) s = .next t ∧ t.fault = some .memoryOutOfBounds ∧ Frame [.fault] s t) ∧
    (s.i.toNat + x.val > 0xFFF →
      (∃ t, exec (.ldMemVx x) s = .next t ∧ t.fault = some .memoryOutOfBounds ∧ Frame [.fault] s t) ∧
      (∃ t, exec (.ldVxMem x) s = .next t ∧ t.fault = some .memoryOutOfBounds ∧ Frame [.fault] s t))

/-- R73: a block store over the next instruction word is what the next step fetches: the two bytes stored at the advanced
`PC` are the word it runs. -/
def Obligations.StoredCodeIsFetchedNext : Prop :=
  ∀ (x : Reg) (s t : State), s.fault = none → 1 ≤ x.val → s.i = s.pc → s.i.toNat + x.val ≤ 0xFFF →
    exec (.ldMemVx x) s = .next t →
    step t = exec (decodeWord (wordOfBytes (s.reg 0) (s.reg 1))) (t.setPc (t.pc + 2))

/-! ## Whole-machine rules -/

/-- R37: an execute phase writes no component outside the access matrix: no instruction changes a key, only FX15 the
delay timer, only FX18 the sound timer, only FX33 and FX55 memory, only DXYN and 00E0 the screen, and so on. The input of
the coming step is no component of the machine (R35) and stands in the model's `State` beside it (log 1). -/
def Obligations.ExecWritesOnlyTheAccessMatrix : Prop :=
  ∀ (i : Instr) (s t : State), exec i s = .next t → Frame (writes i) s t

/-- R22, R37: a register that is no destination of an instruction keeps its value, but `VF` under the seven that write it
as a flag; those leave 0 or 1 there when they do not raise. That all others leave `VF` alone is decision D6. -/
def Obligations.OnlySevenInstructionsWriteTheFlag : Prop :=
  ∀ (i : Instr) (s t : State), exec i s = .next t →
    (∀ j : Reg, isDestination i j = false → (writesFlag i = true → j ≠ VF) → t.reg j = s.reg j) ∧
    (writesFlag i = true → raises i s = none → t.reg VF = 0 ∨ t.reg VF = 1)

/-- Section 4 of 40_step_fetch_decode.md, R230, R238: from a healthy state every execute phase answers a next state, and
the latch afterwards is exactly what the table says the instruction raises there. -/
def Obligations.ExecRaisesExactlyTheTable : Prop :=
  ∀ (i : Instr) (s : State), s.fault = none → ∃ t, exec i s = .next t ∧ t.fault = raises i s

/-- R235: errors are precise: an execute phase that latches an error in a healthy state has changed nothing else, field
for field (decision D9). -/
def Obligations.ErrorsArePrecise : Prop :=
  ∀ (i : Instr) (s t : State) (e : FatalError), s.fault = none → exec i s = .next t → t.fault = some e →
    t = { s with fault := some e }

/-- R29: no instruction reads the sound timer: its value before an instruction can be seen afterwards only in the sound
timer itself, and not there after FX18. -/
def Obligations.NoInstructionReadsTheSoundTimer : Prop :=
  ∀ (i : Instr) (s t : State) (a : Byte), exec i s = .next t →
    exec i { s with st := a } = .next (match i with | .ldStVx _ => t | _ => { t with st := a })

/-- R30, R37: only the two key tests and the key wait read the keys: any other instruction does the same under any other
key state. -/
def Obligations.OnlyThreeInstructionsReadTheKeys : Prop :=
  ∀ (i : Instr) (s t : State) (k : Vector Bool 16), (∀ x, i ≠ .skp x) → (∀ x, i ≠ .sknp x) → (∀ x, i ≠ .ldVxK x) →
    exec i s = .next t → exec i { s with key := k } = .next { t with key := k }

/-- A step keeps memory in canonical form: no byte listed at 4096 or above (R32, R68), addresses rising, no entry equal to
the reset contents. The form is the model's choice of representation (log 10), not the spec's. -/
def Obligations.StepKeepsMemoryCanonical : Prop :=
  ∀ s t : State, s.memoryCanonical → step s = .next t → t.memoryCanonical

/-- R24: a step keeps `PC` within 0 to 0x10FE, with stack slots of at most 0x1000. -/
def Obligations.StepKeepsCountersInRange : Prop :=
  ∀ s t : State, s.countersInRange → step s = .next t → t.countersInRange

/-- R24, R210, R217, R273: the state of `initialize` satisfies the invariants for any font, every host operation keeps them,
from every state that satisfies them, and so every run, with any operations in any order and any images and random bytes,
reaches only states that satisfy them. The canonical form of memory in them is the model's choice (log 10), and a run as
a list of operations is its reading of R210 (log 7). -/
def Obligations.EveryRunKeepsTheInvariants : Prop :=
  (∀ f : Font, (initializeOp f).Inv) ∧
  (∀ (f : Font) (o : HostOp) (s : State), s.Inv → (perform f o s).Inv) ∧
  (∀ (f : Font) (os : List HostOp), (performAll f os (initializeOp f)).Inv)

/-- R132, R283: at a jump to itself a step leaves the whole state unchanged; the convention is decision D17. -/
def Obligations.FinishedStatesStayFinished : Prop :=
  ∀ s : State, s.finished → step s = .next s

/-! ## Host operations -/

/-- R211: an image of at most 3584 bytes is copied to 0x200 upward and nothing else changes; a longer one latches
ImageTooLarge and no byte changes (decisions D15, D22). -/
def Obligations.LoadIsAllOrNothing : Prop :=
  ∀ (f : Font) (bs : List Byte) (s : State), s.fault = none →
    (bs.length ≤ 3584 →
      (∀ k (h : k < bs.length), (perform f (.load bs) s).byteAt (0x200 + k) = bs[k]) ∧
      MemoryOutside 0x200 bs.length s (perform f (.load bs) s) ∧ Frame [.mem] s (perform f (.load bs) s)) ∧
    (bs.length > 3584 →
      (perform f (.load bs) s).fault = some .imageTooLarge ∧ Frame [.fault] s (perform f (.load bs) s))

/-- R212: `set_key` sets the level of one key and nothing else; any other integer index latches InvalidKeyIndex. -/
def Obligations.SetKeySetsOneLevel : Prop :=
  ∀ (f : Font) (index : Int) (pressed : Bool) (s : State), s.fault = none →
    (∀ k : Fin 16, index = (k.val : Int) →
      (∀ j : Fin 16, (perform f (.setKey index pressed) s).key[j] = if j = k then pressed else s.key[j]) ∧
      Frame [.key] s (perform f (.setKey index pressed) s)) ∧
    (index < 0 ∨ index > 15 →
      (perform f (.setKey index pressed) s).fault = some .invalidKeyIndex ∧
      Frame [.fault] s (perform f (.setKey index pressed) s))

/-- R213: after any number of timer ticks both timers have gone down by that many, independently, and stay at 0; nothing
else has changed, and no instruction has run. -/
def Obligations.TimersDecayToZeroAndStay : Prop :=
  ∀ (f : Font) (k : Nat) (s : State), s.fault = none →
    (performAll f (List.replicate k .tickTimers) s).dt.toNat = s.dt.toNat - k ∧
    (performAll f (List.replicate k .tickTimers) s).st.toNat = s.st.toNat - k ∧
    Frame [.dt, .st] s (performAll f (List.replicate k .tickTimers) s)

/-- R234: on a faulted machine every operation but `reset` changes nothing, so the latch names the first error until a
reset clears it (decision D20). -/
def Obligations.FaultIsStickyUntilReset : Prop :=
  ∀ (f : Font) (o : HostOp) (s : State) (e : FatalError), s.fault = some e →
    (o ≠ .reset → perform f o s = s) ∧ (perform f .reset s).fault = none

/-- R214, R215, R216, R231: the read ports show the pixels in row-major order, the sound timer, and 0 or the code of the
latched error (the codes are decision D10). -/
def Obligations.PortsShowTheState : Prop :=
  ∀ s : State, (∀ p : Fin 2048, (readFramebuffer s)[p] = s.pixel p) ∧ soundPort s = s.st ∧
    (s.fault = none → faultPort s = 0) ∧
    (s.fault = some .stackOverflow → faultPort s = 1) ∧ (s.fault = some .stackUnderflow → faultPort s = 2) ∧
    (s.fault = some .memoryOutOfBounds → faultPort s = 3) ∧ (s.fault = some .invalidKeyIndex → faultPort s = 4) ∧
    (s.fault = some .imageTooLarge → faultPort s = 5)
end

