-- ==== Sys2Proof/Laws/State.lean ====
section
/-! SUPPORT. The update lemmas of State: one lemma per field per named update, true by rfl, and the reads of one
register, one byte and one pixel after each update. -/

namespace Sys2Proof.Machine

/-! ### setReg -/

@[simp] theorem State.setReg_pc (s : State) (x : Reg) (b : Byte) : (s.setReg x b).pc = s.pc := rfl
@[simp] theorem State.setReg_i (s : State) (x : Reg) (b : Byte) : (s.setReg x b).i = s.i := rfl
@[simp] theorem State.setReg_stack (s : State) (x : Reg) (b : Byte) : (s.setReg x b).stack = s.stack := rfl
@[simp] theorem State.setReg_sp (s : State) (x : Reg) (b : Byte) : (s.setReg x b).sp = s.sp := rfl
@[simp] theorem State.setReg_dt (s : State) (x : Reg) (b : Byte) : (s.setReg x b).dt = s.dt := rfl
@[simp] theorem State.setReg_st (s : State) (x : Reg) (b : Byte) : (s.setReg x b).st = s.st := rfl
@[simp] theorem State.setReg_key (s : State) (x : Reg) (b : Byte) : (s.setReg x b).key = s.key := rfl
@[simp] theorem State.setReg_fb (s : State) (x : Reg) (b : Byte) : (s.setReg x b).fb = s.fb := rfl
@[simp] theorem State.setReg_mem (s : State) (x : Reg) (b : Byte) : (s.setReg x b).mem = s.mem := rfl
@[simp] theorem State.setReg_fault (s : State) (x : Reg) (b : Byte) : (s.setReg x b).fault = s.fault := rfl
@[simp] theorem State.setReg_rnd (s : State) (x : Reg) (b : Byte) : (s.setReg x b).rnd = s.rnd := rfl
@[simp] theorem State.setReg_byteAt (s : State) (x : Reg) (b : Byte) (k : Nat) : (s.setReg x b).byteAt k = s.byteAt k := rfl
@[simp] theorem State.setReg_pixel (s : State) (x : Reg) (b : Byte) (p : Fin 2048) : (s.setReg x b).pixel p = s.pixel p := rfl

/-! ### setPc -/

@[simp] theorem State.setPc_v (s : State) (a : Word) : (s.setPc a).v = s.v := rfl
@[simp] theorem State.setPc_pc (s : State) (a : Word) : (s.setPc a).pc = a := rfl
@[simp] theorem State.setPc_i (s : State) (a : Word) : (s.setPc a).i = s.i := rfl
@[simp] theorem State.setPc_stack (s : State) (a : Word) : (s.setPc a).stack = s.stack := rfl
@[simp] theorem State.setPc_sp (s : State) (a : Word) : (s.setPc a).sp = s.sp := rfl
@[simp] theorem State.setPc_dt (s : State) (a : Word) : (s.setPc a).dt = s.dt := rfl
@[simp] theorem State.setPc_st (s : State) (a : Word) : (s.setPc a).st = s.st := rfl
@[simp] theorem State.setPc_key (s : State) (a : Word) : (s.setPc a).key = s.key := rfl
@[simp] theorem State.setPc_fb (s : State) (a : Word) : (s.setPc a).fb = s.fb := rfl
@[simp] theorem State.setPc_mem (s : State) (a : Word) : (s.setPc a).mem = s.mem := rfl
@[simp] theorem State.setPc_fault (s : State) (a : Word) : (s.setPc a).fault = s.fault := rfl
@[simp] theorem State.setPc_rnd (s : State) (a : Word) : (s.setPc a).rnd = s.rnd := rfl
@[simp] theorem State.setPc_reg (s : State) (a : Word) (j : Reg) : (s.setPc a).reg j = s.reg j := rfl
@[simp] theorem State.setPc_byteAt (s : State) (a : Word) (k : Nat) : (s.setPc a).byteAt k = s.byteAt k := rfl
@[simp] theorem State.setPc_pixel (s : State) (a : Word) (p : Fin 2048) : (s.setPc a).pixel p = s.pixel p := rfl

/-! ### setI -/

@[simp] theorem State.setI_v (s : State) (a : Word) : (s.setI a).v = s.v := rfl
@[simp] theorem State.setI_pc (s : State) (a : Word) : (s.setI a).pc = s.pc := rfl
@[simp] theorem State.setI_i (s : State) (a : Word) : (s.setI a).i = a := rfl
@[simp] theorem State.setI_stack (s : State) (a : Word) : (s.setI a).stack = s.stack := rfl
@[simp] theorem State.setI_sp (s : State) (a : Word) : (s.setI a).sp = s.sp := rfl
@[simp] theorem State.setI_dt (s : State) (a : Word) : (s.setI a).dt = s.dt := rfl
@[simp] theorem State.setI_st (s : State) (a : Word) : (s.setI a).st = s.st := rfl
@[simp] theorem State.setI_key (s : State) (a : Word) : (s.setI a).key = s.key := rfl
@[simp] theorem State.setI_fb (s : State) (a : Word) : (s.setI a).fb = s.fb := rfl
@[simp] theorem State.setI_mem (s : State) (a : Word) : (s.setI a).mem = s.mem := rfl
@[simp] theorem State.setI_fault (s : State) (a : Word) : (s.setI a).fault = s.fault := rfl
@[simp] theorem State.setI_rnd (s : State) (a : Word) : (s.setI a).rnd = s.rnd := rfl
@[simp] theorem State.setI_reg (s : State) (a : Word) (j : Reg) : (s.setI a).reg j = s.reg j := rfl
@[simp] theorem State.setI_byteAt (s : State) (a : Word) (k : Nat) : (s.setI a).byteAt k = s.byteAt k := rfl
@[simp] theorem State.setI_pixel (s : State) (a : Word) (p : Fin 2048) : (s.setI a).pixel p = s.pixel p := rfl

/-! ### raise -/

@[simp] theorem State.raise_v (s : State) (e : FatalError) : (s.raise e).v = s.v := rfl
@[simp] theorem State.raise_pc (s : State) (e : FatalError) : (s.raise e).pc = s.pc := rfl
@[simp] theorem State.raise_i (s : State) (e : FatalError) : (s.raise e).i = s.i := rfl
@[simp] theorem State.raise_stack (s : State) (e : FatalError) : (s.raise e).stack = s.stack := rfl
@[simp] theorem State.raise_sp (s : State) (e : FatalError) : (s.raise e).sp = s.sp := rfl
@[simp] theorem State.raise_dt (s : State) (e : FatalError) : (s.raise e).dt = s.dt := rfl
@[simp] theorem State.raise_st (s : State) (e : FatalError) : (s.raise e).st = s.st := rfl
@[simp] theorem State.raise_key (s : State) (e : FatalError) : (s.raise e).key = s.key := rfl
@[simp] theorem State.raise_fb (s : State) (e : FatalError) : (s.raise e).fb = s.fb := rfl
@[simp] theorem State.raise_mem (s : State) (e : FatalError) : (s.raise e).mem = s.mem := rfl
@[simp] theorem State.raise_fault (s : State) (e : FatalError) : (s.raise e).fault = some e := rfl
@[simp] theorem State.raise_rnd (s : State) (e : FatalError) : (s.raise e).rnd = s.rnd := rfl
@[simp] theorem State.raise_reg (s : State) (e : FatalError) (j : Reg) : (s.raise e).reg j = s.reg j := rfl
@[simp] theorem State.raise_byteAt (s : State) (e : FatalError) (k : Nat) : (s.raise e).byteAt k = s.byteAt k := rfl
@[simp] theorem State.raise_pixel (s : State) (e : FatalError) (p : Fin 2048) : (s.raise e).pixel p = s.pixel p := rfl

/-! ### setBlock -/

@[simp] theorem State.setBlock_pc (s : State) (bs : List Byte) : (s.setBlock bs).pc = s.pc := rfl
@[simp] theorem State.setBlock_i (s : State) (bs : List Byte) : (s.setBlock bs).i = s.i := rfl
@[simp] theorem State.setBlock_stack (s : State) (bs : List Byte) : (s.setBlock bs).stack = s.stack := rfl
@[simp] theorem State.setBlock_sp (s : State) (bs : List Byte) : (s.setBlock bs).sp = s.sp := rfl
@[simp] theorem State.setBlock_dt (s : State) (bs : List Byte) : (s.setBlock bs).dt = s.dt := rfl
@[simp] theorem State.setBlock_st (s : State) (bs : List Byte) : (s.setBlock bs).st = s.st := rfl
@[simp] theorem State.setBlock_key (s : State) (bs : List Byte) : (s.setBlock bs).key = s.key := rfl
@[simp] theorem State.setBlock_fb (s : State) (bs : List Byte) : (s.setBlock bs).fb = s.fb := rfl
@[simp] theorem State.setBlock_mem (s : State) (bs : List Byte) : (s.setBlock bs).mem = s.mem := rfl
@[simp] theorem State.setBlock_fault (s : State) (bs : List Byte) : (s.setBlock bs).fault = s.fault := rfl
@[simp] theorem State.setBlock_rnd (s : State) (bs : List Byte) : (s.setBlock bs).rnd = s.rnd := rfl
@[simp] theorem State.setBlock_byteAt (s : State) (bs : List Byte) (k : Nat) : (s.setBlock bs).byteAt k = s.byteAt k := rfl
@[simp] theorem State.setBlock_pixel (s : State) (bs : List Byte) (p : Fin 2048) : (s.setBlock bs).pixel p = s.pixel p := rfl

/-! ### setResultThenFlag -/

@[simp] theorem State.setResultThenFlag_pc (s : State) (x : Reg) (r f : Byte) : (s.setResultThenFlag x r f).pc = s.pc := rfl
@[simp] theorem State.setResultThenFlag_i (s : State) (x : Reg) (r f : Byte) : (s.setResultThenFlag x r f).i = s.i := rfl
@[simp] theorem State.setResultThenFlag_stack (s : State) (x : Reg) (r f : Byte) : (s.setResultThenFlag x r f).stack = s.stack := rfl
@[simp] theorem State.setResultThenFlag_sp (s : State) (x : Reg) (r f : Byte) : (s.setResultThenFlag x r f).sp = s.sp := rfl
@[simp] theorem State.setResultThenFlag_dt (s : State) (x : Reg) (r f : Byte) : (s.setResultThenFlag x r f).dt = s.dt := rfl
@[simp] theorem State.setResultThenFlag_st (s : State) (x : Reg) (r f : Byte) : (s.setResultThenFlag x r f).st = s.st := rfl
@[simp] theorem State.setResultThenFlag_key (s : State) (x : Reg) (r f : Byte) : (s.setResultThenFlag x r f).key = s.key := rfl
@[simp] theorem State.setResultThenFlag_fb (s : State) (x : Reg) (r f : Byte) : (s.setResultThenFlag x r f).fb = s.fb := rfl
@[simp] theorem State.setResultThenFlag_mem (s : State) (x : Reg) (r f : Byte) : (s.setResultThenFlag x r f).mem = s.mem := rfl
@[simp] theorem State.setResultThenFlag_fault (s : State) (x : Reg) (r f : Byte) : (s.setResultThenFlag x r f).fault = s.fault := rfl
@[simp] theorem State.setResultThenFlag_rnd (s : State) (x : Reg) (r f : Byte) : (s.setResultThenFlag x r f).rnd = s.rnd := rfl
@[simp] theorem State.setResultThenFlag_byteAt (s : State) (x : Reg) (r f : Byte) (k : Nat) : (s.setResultThenFlag x r f).byteAt k = s.byteAt k := rfl
@[simp] theorem State.setResultThenFlag_pixel (s : State) (x : Reg) (r f : Byte) (p : Fin 2048) : (s.setResultThenFlag x r f).pixel p = s.pixel p := rfl

/-! ### The input of a step -/

@[simp] theorem State.withRnd_machine (s : State) (r : StepInput) : ({ s with rnd := r } : State).machine = s.machine := rfl
@[simp] theorem State.withRnd_rnd (s : State) (r : StepInput) : ({ s with rnd := r } : State).rnd = r := rfl
@[simp] theorem State.withRnd_reg (s : State) (r : StepInput) (x : Reg) : ({ s with rnd := r } : State).reg x = s.reg x := rfl
@[simp] theorem State.withRnd_byteAt (s : State) (r : StepInput) (k : Nat) : ({ s with rnd := r } : State).byteAt k = s.byteAt k := rfl
@[simp] theorem State.withRnd_pixel (s : State) (r : StepInput) (p : Fin 2048) : ({ s with rnd := r } : State).pixel p = s.pixel p := rfl

/-- A given byte is the input, whatever the free values are (R126). -/
@[simp] theorem StepInput.byte_give (r : StepInput) (b : Byte) : (r.give b).byte = b := rfl
@[simp] theorem StepInput.byte_given (b : Byte) (k : Nat) : StepInput.byte { given := some b, drawn := k } = b := rfl

/-! ### Registers after a write -/

/-- Read after write of a register: the value written where it was written, the old value elsewhere. -/
@[simp] theorem State.reg_setReg (s : State) (x j : Reg) (b : Byte) :
    (s.setReg x b).reg j = if j = x then b else s.reg j := by
  simp only [State.setReg, State.reg, Fin.getElem_fin, Vector.getElem_set, Fin.ext_iff, eq_comm]

/-- The flag remains in `VF`, the result in any other `V[x]` (R38). -/
@[simp] theorem State.reg_setResultThenFlag (s : State) (x j : Reg) (r f : Byte) :
    (s.setResultThenFlag x r f).reg j = if j = VF then f else if j = x then r else s.reg j := by
  simp [State.setResultThenFlag]

/-- A block load writes exactly the registers its bytes reach (R202). -/
@[simp] theorem State.reg_setBlock (s : State) (bs : List Byte) (j : Reg) :
    (s.setBlock bs).reg j = bs.getD j.val (s.reg j) := by
  simp [State.setBlock, State.reg]

/-! ### skip -/

@[simp] theorem State.skip_eq_setPc (s : State) : s.skip = s.setPc (s.pc + 2) := rfl

/-- `skipIf` writes the counter and nothing else. -/
theorem State.skipIf_eq_setPc (s : State) (c : Bool) : s.skipIf c = s.setPc (if c then s.pc + 2 else s.pc) := by
  cases c <;> rfl

end Sys2Proof.Machine
end

