-- ==== Sys2Proof/Laws/Memory.lean ====
section
/-! SUPPORT. The laws of memory: read after write, canonical form kept by every operation, and canonical memories that
read alike are equal. -/

namespace Sys2Proof.Machine

/-! ### Reading after writing -/

theorem Memory.byteAt_insertCell (m : Memory) (a : Nat) (b : Byte) (k : Nat) (h : ∀ c ∈ m, c.1 ≠ a) :
    Memory.byteAt (Memory.insertCell m a b) k = if k = a then b else Memory.byteAt m k := by
  induction m with
  | nil => simp only [Memory.insertCell, Memory.byteAt, eq_comm]
  | cons c m ih =>
    have hc : c.1 ≠ a := h c (by simp)
    have ih' := ih fun d hd => h d (by simp [hd])
    unfold Memory.insertCell
    split
    · simp only [Memory.byteAt, eq_comm (a := a)]
    · simp only [Memory.byteAt, ih']
      by_cases hk : c.1 = k
      · subst hk; simp [hc]
      · simp [hk]

theorem Memory.byteAt_filter (m : Memory) (a k : Nat) :
    Memory.byteAt (m.filter fun c => decide (c.1 ≠ a)) k = if k = a then resetByte a else Memory.byteAt m k := by
  induction m with
  | nil => simp only [List.filter_nil, Memory.byteAt]; split <;> simp_all
  | cons c m ih =>
    by_cases hc : c.1 = a
    · rw [List.filter_cons_of_neg (by simp [hc]), ih]
      by_cases hk : k = a
      · simp [hk]
      · simp [hk, Memory.byteAt, hc, Ne.symm hk]
    · rw [List.filter_cons_of_pos (by simp [hc])]
      simp only [Memory.byteAt, ih]
      by_cases hk : c.1 = k
      · subst hk; simp [hc]
      · simp [hk]

/-- Read after write of one byte: the byte written where it was written, the old byte everywhere else. -/
@[simp] theorem Memory.byteAt_put (m : Memory) (a : Nat) (b : Byte) (k : Nat) :
    Memory.byteAt (Memory.put m a b) k = if k = a then b else Memory.byteAt m k := by
  unfold Memory.put
  split
  · rename_i hb; rw [Memory.byteAt_filter, hb]
  · rw [Memory.byteAt_insertCell _ _ _ _ (by simp), Memory.byteAt_filter]
    split <;> simp_all

/-- Read after write of a block: the written bytes inside it, the old byte everywhere else. -/
theorem Memory.byteAt_putBytes (bs : List Byte) (m : Memory) (a k : Nat) :
    Memory.byteAt (Memory.putBytes m a bs) k =
      if a ≤ k ∧ k < a + bs.length then bs.getD (k - a) 0 else Memory.byteAt m k := by
  induction bs generalizing m a with
  | nil =>
    rw [if_neg (by simp)]; rfl
  | cons b bs ih =>
    rw [Memory.putBytes, ih, Memory.byteAt_put]
    by_cases h1 : a + 1 ≤ k ∧ k < a + 1 + bs.length
    · have h2 : a ≤ k ∧ k < a + (b :: bs).length := by simp; omega
      have h3 : k - a = (k - (a + 1)) + 1 := by omega
      rw [if_pos h1, if_pos h2, h3, List.getD_cons_succ]
    · rw [if_neg h1]
      by_cases h4 : k = a
      · subst h4; simp
      · have h5 : ¬ (a ≤ k ∧ k < a + (b :: bs).length) := by simp; omega
        rw [if_neg h4, if_neg h5]

theorem Memory.byteAt_putBytes_outside (bs : List Byte) (m : Memory) (a k : Nat)
    (h : k < a ∨ a + bs.length ≤ k) : Memory.byteAt (Memory.putBytes m a bs) k = Memory.byteAt m k := by
  rw [Memory.byteAt_putBytes, if_neg (by omega)]

@[simp] theorem Memory.length_bytesAt (m : Memory) (a n : Nat) : (Memory.bytesAt m a n).length = n := by
  simp [Memory.bytesAt]

theorem Memory.getD_bytesAt (m : Memory) (a n k : Nat) (d : Byte) (h : k < n) :
    (Memory.bytesAt m a n).getD k d = Memory.byteAt m (a + k) := by
  simp [Memory.bytesAt, h]

/-! ### The canonical form -/

theorem Memory.mem_insertCell (m : Memory) (a : Nat) (b : Byte) (d : Host.Cell) :
    d ∈ Memory.insertCell m a b ↔ d = (a, b) ∨ d ∈ m := by
  induction m with
  | nil => simp [Memory.insertCell]
  | cons c m ih =>
    unfold Memory.insertCell
    split
    · simp
    · simp only [List.mem_cons, ih]; tauto

theorem Memory.pairwise_insertCell (m : Memory) (a : Nat) (b : Byte) (hm : m.Pairwise fun c d => c.1 < d.1)
    (h : ∀ c ∈ m, c.1 ≠ a) : (Memory.insertCell m a b).Pairwise fun c d => c.1 < d.1 := by
  induction m with
  | nil => simp [Memory.insertCell]
  | cons c m ih =>
    have hc : c.1 ≠ a := h c (by simp)
    rw [List.pairwise_cons] at hm
    unfold Memory.insertCell
    split
    · rename_i hlt
      refine List.pairwise_cons.2 ⟨?_, List.pairwise_cons.2 hm⟩
      intro d hd
      rcases List.mem_cons.1 hd with rfl | hd
      · exact hlt
      · exact lt_trans hlt (hm.1 d hd)
    · rename_i hlt
      refine List.pairwise_cons.2 ⟨?_, ih hm.2 fun d hd => h d (by simp [hd])⟩
      intro d hd
      rcases (Memory.mem_insertCell m a b d).1 hd with rfl | hd
      · show c.1 < a
        omega
      · exact hm.1 d hd

/-- The empty list, the memory right after reset, is canonical. -/
theorem Memory.wf_nil : Memory.wf [] := by simp [Memory.wf]

/-- A write of one byte inside memory keeps the canonical form. -/
theorem Memory.wf_put (m : Memory) (a : Nat) (b : Byte) (hm : Memory.wf m) (ha : a < 4096) :
    Memory.wf (Memory.put m a b) := by
  have hf : (m.filter fun c => decide (c.1 ≠ a)).Pairwise fun c d => c.1 < d.1 := hm.1.filter _
  unfold Memory.put
  split
  · exact ⟨hf, fun c hc => hm.2 c (List.mem_filter.1 hc).1⟩
  · rename_i hb
    refine ⟨Memory.pairwise_insertCell _ _ _ hf (by simp), fun c hc => ?_⟩
    rcases (Memory.mem_insertCell _ _ _ _).1 hc with rfl | hc
    · exact ⟨ha, hb⟩
    · exact hm.2 c (List.mem_filter.1 hc).1

/-- A write of a block inside memory keeps the canonical form. -/
theorem Memory.wf_putBytes (bs : List Byte) (m : Memory) (a : Nat) (hm : Memory.wf m) (ha : a + bs.length ≤ 4096) :
    Memory.wf (Memory.putBytes m a bs) := by
  induction bs generalizing m a with
  | nil => exact hm
  | cons b bs ih =>
    simp only [List.length_cons] at ha
    exact ih _ _ (Memory.wf_put m a b hm (by omega)) (by omega)

theorem Memory.byteAt_of_lt (m : Memory) (a : Nat) (h : ∀ c ∈ m, a < c.1) : Memory.byteAt m a = resetByte a := by
  induction m with
  | nil => rfl
  | cons c m ih =>
    have := h c (by simp)
    rw [Memory.byteAt, if_neg (by omega)]
    exact ih fun d hd => h d (by simp [hd])

/-- Canonical memories that read alike at every address are the same list: equal memories are equal data. -/
theorem Memory.eq_of_byteAt_eq (m n : Memory) (hm : Memory.wf m) (hn : Memory.wf n)
    (h : ∀ a, Memory.byteAt m a = Memory.byteAt n a) : m = n := by
  induction m generalizing n with
  | nil =>
    cases n with
    | nil => rfl
    | cons d n =>
      have := h d.1
      rw [Memory.byteAt, Memory.byteAt, if_pos rfl] at this
      exact absurd this.symm (hn.2 d (by simp)).2
  | cons c m ih =>
    have hm' := List.pairwise_cons.1 hm.1
    cases n with
    | nil =>
      have := h c.1
      rw [Memory.byteAt, Memory.byteAt, if_pos rfl] at this
      exact absurd this (hm.2 c (by simp)).2
    | cons d n =>
      have hn' := List.pairwise_cons.1 hn.1
      have key : c.1 = d.1 := by
        rcases Nat.lt_trichotomy c.1 d.1 with hlt | heq | hgt
        · have h1 := h c.1
          rw [Memory.byteAt, if_pos rfl, Memory.byteAt_of_lt (d :: n) c.1 (by
            intro e he
            rcases List.mem_cons.1 he with rfl | he
            · exact hlt
            · exact lt_trans hlt (hn'.1 e he))] at h1
          exact absurd h1 (hm.2 c (by simp)).2
        · exact heq
        · have h1 := h d.1
          rw [Memory.byteAt_of_lt (c :: m) d.1 (by
            intro e he
            rcases List.mem_cons.1 he with rfl | he
            · exact hgt
            · exact lt_trans hgt (hm'.1 e he)), Memory.byteAt, if_pos rfl] at h1
          exact absurd h1.symm (hn.2 d (by simp)).2
      have hval : c.2 = d.2 := by
        have h1 := h c.1
        rwa [Memory.byteAt, if_pos rfl, Memory.byteAt, if_pos key.symm] at h1
      have hcd : c = d := Prod.ext key hval
      subst hcd
      congr 1
      refine ih n ⟨hm'.2, fun e he => hm.2 e (by simp [he])⟩ ⟨hn'.2, fun e he => hn.2 e (by simp [he])⟩ fun a => ?_
      by_cases ha : c.1 = a
      · subst ha
        rw [Memory.byteAt_of_lt m c.1 hm'.1, Memory.byteAt_of_lt n c.1 hn'.1]
      · have h1 := h a
        rwa [Memory.byteAt, if_neg ha, Memory.byteAt, if_neg ha] at h1

/-- Reset contents: a glyph byte below 80, zero from 80 on (R36, R67). -/
theorem resetByte_of_ge (a : Nat) (h : 80 ≤ a) : resetByte a = 0 := by
  have h1 : defaultGlyphs.length = 16 := by decide
  have h2 : defaultGlyphs.getD (a / 5) [] = [] := by
    rw [List.getD_eq_getElem?_getD, List.getElem?_eq_none (by omega)]; rfl
  rw [resetByte, h2]; rfl

end Sys2Proof.Machine
end

