-- ==== Sys2Proof/Laws/Framebuffer.lean ====
section
/-! SUPPORT. The laws of the framebuffer: reading a cell after a toggle, and what toggling a list of distinct cells does
(R180, R182). -/

namespace Sys2Proof.Machine

/-- The cells of two indices are the same place in the grid only if the indices are equal. -/
theorem cell_index_inj (p q : Fin 2048) (h1 : p.val / 64 = q.val / 64) (h2 : p.val % 64 = q.val % 64) : p = q := by
  apply Fin.ext; omega

/-- Toggling a cell changes that cell and no other. -/
@[simp] theorem Framebuffer.cell_toggle (fb : Framebuffer) (p q : Fin 2048) :
    Framebuffer.cell (Framebuffer.toggle fb p) q = if q = p then !Framebuffer.cell fb p else Framebuffer.cell fb q := by
  by_cases h : q = p
  · subst h
    simp [Framebuffer.cell, Framebuffer.toggle]
  · rw [if_neg h]
    unfold Framebuffer.toggle
    by_cases h1 : p.val / 64 = q.val / 64
    · have h2 : p.val % 64 ≠ q.val % 64 := fun h2 => h (cell_index_inj p q h1 h2).symm
      simp [Framebuffer.cell, h1, h2]
    · simp [Framebuffer.cell, h1]

/-- After a clear every pixel is unset (R181). -/
@[simp] theorem Framebuffer.cell_clear (p : Fin 2048) : Framebuffer.cell Framebuffer.clear p = false := by
  simp [Framebuffer.cell, Framebuffer.clear]

/-- Toggling distinct cells flips exactly them. -/
theorem cell_toggleCells (ps : List (Fin 2048)) (fb : Framebuffer) (hit : Bool) (hps : ps.Nodup) (q : Fin 2048) :
    Framebuffer.cell (toggleCells fb hit ps).1 q = (Framebuffer.cell fb q ^^ decide (q ∈ ps)) := by
  induction ps generalizing fb hit with
  | nil => simp [toggleCells]
  | cons p ps ih =>
    have hp := List.nodup_cons.1 hps
    rw [toggleCells, ih _ _ hp.2, Framebuffer.cell_toggle]
    by_cases h : q = p
    · subst h; simp [hp.1]
    · simp [h]

/-- Toggling distinct cells reports a collision when one of them was set before. -/
theorem hit_toggleCells (ps : List (Fin 2048)) (fb : Framebuffer) (hit : Bool) (hps : ps.Nodup) :
    (toggleCells fb hit ps).2 = (hit || ps.any fun p => Framebuffer.cell fb p) := by
  induction ps generalizing fb hit with
  | nil => simp [toggleCells]
  | cons p ps ih =>
    have hp := List.nodup_cons.1 hps
    rw [toggleCells, ih _ _ hp.2, List.any_cons, Bool.or_assoc]
    have hrest : (ps.any fun q => Framebuffer.cell (Framebuffer.toggle fb p) q) =
        ps.any fun q => Framebuffer.cell fb q := by
      rw [Bool.eq_iff_iff, List.any_eq_true, List.any_eq_true]
      refine exists_congr fun q => and_congr_right fun hq => ?_
      rw [Framebuffer.cell_toggle, if_neg]
      rintro rfl
      exact hp.1 hq
    rw [hrest]

/-- Which cells a row names (R182). -/
theorem mem_rowCells (x0 y0 : Byte) (r : Nat) (b : Byte) (p : Fin 2048) :
    p ∈ rowCells x0 y0 r b ↔ ∃ c, c < 8 ∧ b.getLsbD (7 - c) = true ∧ pixelCell x0 y0 r c = p := by
  simp [rowCells, and_assoc]

/-- Which cells the rows of a sprite name (R182). -/
theorem mem_spriteCells (x0 y0 : Byte) (bs : List Byte) (r : Nat) (p : Fin 2048) :
    p ∈ spriteCells x0 y0 r bs ↔
      ∃ k, k < bs.length ∧ ∃ c, c < 8 ∧ (bs.getD k 0).getLsbD (7 - c) = true ∧ pixelCell x0 y0 (r + k) c = p := by
  induction bs generalizing r with
  | nil => simp [spriteCells]
  | cons b bs ih =>
    rw [spriteCells, List.mem_append, ih, mem_rowCells]
    constructor
    · rintro (⟨c, hc⟩ | ⟨k, hk, c, hc⟩)
      · exact ⟨0, by simp, c, hc⟩
      · exact ⟨k + 1, by simp; omega, c, by
          rw [List.getD_cons_succ]
          simpa [Nat.add_assoc, Nat.add_comm 1 k] using hc⟩
    · rintro ⟨k, hk, c, hc⟩
      cases k with
      | zero => exact .inl ⟨c, hc⟩
      | succ k =>
        refine .inr ⟨k, by simpa using hk, c, ?_⟩
        rw [List.getD_cons_succ] at hc
        simpa [Nat.add_assoc, Nat.add_comm 1 k] using hc

/-- Different columns of a row are different cells (R182). -/
theorem rowCells_nodup (x0 y0 : Byte) (r : Nat) (b : Byte) : (rowCells x0 y0 r b).Nodup := by
  refine List.Nodup.map_on ?_ (List.nodup_range.filter _)
  intro c hc d hd h
  have hc' := List.mem_range.1 (List.mem_filter.1 hc).1
  have hd' := List.mem_range.1 (List.mem_filter.1 hd).1
  have := congrArg Fin.val h
  simp only [pixelCell] at this
  omega

/-- No pixel is toggled twice by one draw: the cells of a sprite of at most 32 rows are pairwise distinct (R182). -/
theorem spriteCells_nodup (x0 y0 : Byte) (bs : List Byte) (r : Nat) (h : bs.length ≤ 32) :
    (spriteCells x0 y0 r bs).Nodup := by
  induction bs generalizing r with
  | nil => simp [spriteCells]
  | cons b bs ih =>
    rw [List.length_cons] at h
    rw [spriteCells, List.nodup_append]
    refine ⟨rowCells_nodup x0 y0 r b, ih (r + 1) (by omega), ?_⟩
    rintro p hp q hq rfl
    obtain ⟨c, -, -, hc⟩ := (mem_rowCells x0 y0 r b p).1 hp
    obtain ⟨k, hk, d, -, -, hd⟩ := (mem_spriteCells x0 y0 bs (r + 1) p).1 hq
    have h1 := congrArg Fin.val hc
    have h2 := congrArg Fin.val hd
    simp only [pixelCell] at h1 h2
    omega

end Sys2Proof.Machine
end

