-- ==== Sys2Proof/Laws/Ops.lean ====
section
/-! SUPPORT. One lemma per shared operation that says once everything it can do. -/

namespace Sys2Proof.Machine

/-- `finish` always answers a next state: the computed one, or the error latched and nothing else (R235). -/
theorem State.finish_cases (s t : State) (r : Except FatalError State) :
    s.finish r = .next t ↔ r = .ok t ∨ ∃ e, r = .error e ∧ t = s.raise e := by
  cases r with
  | ok u => simp [State.finish]
  | error e => simp [State.finish, eq_comm]

@[simp] theorem State.finish_ok (s t : State) : s.finish (.ok t) = .next t := rfl
@[simp] theorem State.finish_error (s : State) (e : FatalError) : s.finish (.error e) = .next (s.raise e) := rfl

/-- The bound of an access of at least one byte. -/
theorem inBounds_iff (a n : Nat) : inBounds a n = true ↔ n = 0 ∨ a + n ≤ 4096 := by
  simp [inBounds]

/-- `MemRead`: the bytes, exactly when the access is in bounds; otherwise the error (R8). -/
theorem State.memRead_cases (s : State) (a n : Nat) :
    (inBounds a n = true ∧ s.memRead a n = .ok (Memory.bytesAt s.mem a n)) ∨
    (inBounds a n = false ∧ s.memRead a n = .error .memoryOutOfBounds) := by
  unfold State.memRead
  cases inBounds a n <;> simp

/-- `MemWrite`: the bytes written, exactly when the access is in bounds; otherwise the error and no write (R9). -/
theorem State.memWrite_cases (s : State) (a : Nat) (bs : List Byte) :
    (inBounds a bs.length = true ∧ s.memWrite a bs = .ok { s with mem := Memory.putBytes s.mem a bs }) ∨
    (inBounds a bs.length = false ∧ s.memWrite a bs = .error .memoryOutOfBounds) := by
  unfold State.memWrite
  cases inBounds a bs.length <;> simp

/-- A push that succeeds: below 16 live entries, the value in the next free slot, the pointer one higher (R130). -/
theorem State.push_ok (s t : State) (a : Word) (h : s.push a = .ok t) :
    ∃ _ : s.sp.val < 16,
      t = { s with stack := s.stack.set s.sp.val a, sp := ⟨s.sp.val + 1, by omega⟩ } := by
  unfold State.push at h
  split at h
  · rename_i hs
    exact ⟨hs, by simpa using h.symm⟩
  · cases h

/-- A push fails exactly on the full stack, and only as a stack overflow (R130). -/
theorem State.push_error (s : State) (a : Word) (e : FatalError) (h : s.push a = .error e) :
    s.sp = 16 ∧ e = .stackOverflow := by
  unfold State.push at h
  split at h
  · cases h
  · have := s.sp.isLt
    exact ⟨Fin.ext (by simp; omega), by simpa using h.symm⟩

/-- A pop that succeeds: the value of the slot below the pointer, the pointer one lower, every slot kept (R131, R26). -/
theorem State.pop_ok (s t : State) (a : Word) (h : s.pop = .ok (a, t)) :
    ∃ _ : s.sp.val ≠ 0,
      a = s.stack[s.sp.val - 1]'(by omega) ∧ t = { s with sp := ⟨s.sp.val - 1, by omega⟩ } := by
  unfold State.pop at h
  split at h
  · cases h
  · rename_i hs
    simp only [Except.ok.injEq, Prod.mk.injEq] at h
    exact ⟨hs, h.1.symm, h.2.symm⟩

/-- A pop fails exactly on the empty stack, and only as a stack underflow (R131). -/
theorem State.pop_error (s : State) (e : FatalError) (h : s.pop = .error e) : s.sp = 0 ∧ e = .stackUnderflow := by
  unfold State.pop at h
  split at h
  · rename_i hs
    exact ⟨Fin.ext (by simpa using hs), by simpa using h.symm⟩
  · cases h

/-- The fetch: in bounds, the big-endian word and `PC` two higher; otherwise the error (R121). -/
theorem State.fetch_cases (s : State) :
    (s.pc.toNat ≤ 0xFFE ∧
      s.fetch = .ok (wordOfBytes (s.byteAt s.pc.toNat) (s.byteAt (s.pc.toNat + 1)), s.setPc (s.pc + 2))) ∨
    (0xFFF ≤ s.pc.toNat ∧ s.fetch = .error .memoryOutOfBounds) := by
  have hb := inBounds_iff s.pc.toNat 2
  unfold State.fetch
  cases h : inBounds s.pc.toNat 2 with
  | false =>
    rw [h] at hb
    exact .inr ⟨by simp at hb; omega, by simp⟩
  | true =>
    rw [h] at hb
    exact .inl ⟨by simp at hb; omega, by simp⟩

/-- A key read is in range exactly when it does not raise (R190). -/
theorem State.keyAt_cases (s : State) (k : Byte) :
    (∃ h : k.toNat < 16, s.keyAt k = .ok (s.key[k.toNat]'h)) ∨
    (16 ≤ k.toNat ∧ s.keyAt k = .error .invalidKeyIndex) := by
  unfold State.keyAt
  by_cases h : k.toNat < 16
  · exact .inl ⟨h, by simp [h]⟩
  · exact .inr ⟨by omega, by simp [h]⟩

end Sys2Proof.Machine
end

