-- ==== Sys2Proof/Laws/Word.lean ====
section
/-! SUPPORT. The fields of a word and the encoder as arithmetic on natural numbers, where omega can work. -/

namespace Sys2Proof

/-- The nibble at a bit position, as a quotient and a remainder. -/
theorem nibble_val (w : Word) (lo : Nat) : (nibble w lo).val = w.toNat / 2 ^ lo % 16 := by
  simp [nibble, BitVec.extractLsb'_toNat, Nat.shiftRight_eq_div_pow]

theorem fieldX_val (w : Word) : (fieldX w).val = w.toNat / 256 % 16 := by simp [fieldX, nibble_val]
theorem fieldY_val (w : Word) : (fieldY w).val = w.toNat / 16 % 16 := by simp [fieldY, nibble_val]
theorem fieldN_val (w : Word) : (fieldN w).val = w.toNat % 16 := by simp [fieldN, nibble_val]
theorem fieldKK_toNat (w : Word) : (fieldKK w).toNat = w.toNat % 256 := by
  simp [fieldKK, BitVec.extractLsb'_toNat]
theorem fieldNNN_toNat (w : Word) : (fieldNNN w).toNat = w.toNat % 4096 := by
  simp [fieldNNN, BitVec.extractLsb'_toNat]

/-- Concatenation is multiplication and addition: the left part is the high part (R5). -/
theorem append_toNat_eq {m n : Nat} (a : BitVec m) (b : BitVec n) :
    (a ++ b).toNat = a.toNat * 2 ^ n + b.toNat := by
  rw [BitVec.toNat_append, ← Nat.shiftLeft_add_eq_or_of_lt b.isLt, Nat.shiftLeft_eq]

@[simp] theorem nib_toNat (x : Fin 16) : (nib x).toNat = x.val := by
  simp [nib]

theorem encodeA_toNat (op : BitVec 4) (nnn : Addr) : (encodeA op nnn).toNat = op.toNat * 4096 + nnn.toNat :=
  append_toNat_eq op nnn

theorem encodeI_toNat (op : BitVec 4) (x : Reg) (kk : Byte) :
    (encodeI op x kk).toNat = op.toNat * 4096 + x.val * 256 + kk.toNat := by
  have h : (encodeI op x kk).toNat = (op ++ nib x).toNat * 2 ^ 8 + kk.toNat := append_toNat_eq (op ++ nib x) kk
  rw [append_toNat_eq, nib_toNat] at h
  rw [h]; ring

theorem encodeR_toNat (op : BitVec 4) (x y n : Fin 16) :
    (encodeR op x y n).toNat = op.toNat * 4096 + x.val * 256 + y.val * 16 + n.val := by
  have h : (encodeR op x y n).toNat = (op ++ nib x ++ nib y).toNat * 2 ^ 4 + (nib n).toNat :=
    append_toNat_eq (op ++ nib x ++ nib y) (nib n)
  rw [append_toNat_eq, append_toNat_eq, nib_toNat, nib_toNat, nib_toNat] at h
  rw [h]; ring

/-- The word of two bytes is big-endian (R61). -/
theorem wordOfBytes_toNat (b0 b1 : Byte) : (wordOfBytes b0 b1).toNat = 256 * b0.toNat + b1.toNat := by
  have h : (wordOfBytes b0 b1).toNat = b0.toNat * 2 ^ 8 + b1.toNat := append_toNat_eq b0 b1
  rw [h]; ring

end Sys2Proof
end

