-- ==== Sys2Proof/Laws/Exec.lean ====
section
/-! SUPPORT. One inversion lemma for each meaning that can go two ways, saying once everything it can answer; the
inversion of the step; and how a frame follows from equal fields. -/

namespace Sys2Proof.Machine

/-! ## Frames -/

/-- Equal fields give a frame: the fields of the components outside `c` have to be equal. -/
theorem frame_of_fields (c : List Part) (s t : State)
    (hregs : Part.regs ∉ c → t.v = s.v) (hpc : Part.pc ∉ c → t.pc = s.pc) (hi : Part.i ∉ c → t.i = s.i)
    (hstack : Part.stack ∉ c → t.sp = s.sp ∧ t.stack = s.stack) (hdt : Part.dt ∉ c → t.dt = s.dt)
    (hst : Part.st ∉ c → t.st = s.st) (hkey : Part.key ∉ c → t.key = s.key) (hfb : Part.fb ∉ c → t.fb = s.fb)
    (hmem : Part.mem ∉ c → t.mem = s.mem) (hfault : Part.fault ∉ c → t.fault = s.fault) : Frame c s t := by
  intro p hp
  cases p with
  | regs => intro j; simp only [State.reg, hregs hp]
  | pc => exact hpc hp
  | i => exact hi hp
  | stack => exact ⟨(hstack hp).1, fun k => by simp only [(hstack hp).2]⟩
  | dt => exact hdt hp
  | st => exact hst hp
  | key => intro k; simp only [hkey hp]
  | fb => intro p; simp only [State.pixel, hfb hp]
  | mem => intro a; simp only [State.byteAt, hmem hp]
  | fault => exact hfault hp

/-! ## Meanings that can raise -/

/-- CALL: pushes and jumps below 16 entries, raises on the full stack (R133). -/
theorem execCall_cases (nnn : Addr) (s : State) :
    (∃ h : s.sp.val < 16, execCall nnn s = .next
      { s with stack := s.stack.set s.sp.val s.pc, sp := ⟨s.sp.val + 1, by omega⟩, pc := zext16 nnn }) ∨
    (s.sp.val = 16 ∧ execCall nnn s = .next (s.raise .stackOverflow)) := by
  have hlt := s.sp.isLt
  by_cases h : s.sp.val < 16
  · exact .inl ⟨h, by simp [execCall, State.push, h, State.setPc]⟩
  · exact .inr ⟨by omega, by simp [execCall, State.push, h]⟩

/-- RET: pops into `PC` with a live entry, raises on the empty stack (R134). -/
theorem execRet_cases (s : State) :
    (∃ _ : s.sp.val ≠ 0, execRet s = .next
      { s with sp := ⟨s.sp.val - 1, by omega⟩, pc := s.stack[s.sp.val - 1]'(by omega) }) ∨
    (s.sp.val = 0 ∧ execRet s = .next (s.raise .stackUnderflow)) := by
  by_cases h : s.sp.val = 0
  · exact .inr ⟨h, by simp [execRet, State.pop, h]⟩
  · exact .inl ⟨h, by simp [execRet, State.pop, h, State.setPc]⟩

/-- DRW: draws with its rows in bounds, raises otherwise (R180). -/
theorem execDrw_cases (x y : Reg) (n : Fin 16) (s : State) :
    ((n.val = 0 ∨ s.i.toNat + n.val ≤ 4096) ∧ execDrw x y n s = .next
      (State.setReg
        { s with fb := (toggleCells s.fb false
            (spriteCells (s.reg x) (s.reg y) 0 (Memory.bytesAt s.mem s.i.toNat n.val))).1 } VF
        (bit (toggleCells s.fb false
            (spriteCells (s.reg x) (s.reg y) 0 (Memory.bytesAt s.mem s.i.toNat n.val))).2))) ∨
    (n.val ≠ 0 ∧ 4096 < s.i.toNat + n.val ∧ execDrw x y n s = .next (s.raise .memoryOutOfBounds)) := by
  have hb := inBounds_iff s.base n.val
  unfold execDrw
  rcases s.memRead_cases s.base n.val with ⟨h, hr⟩ | ⟨h, hr⟩ <;> rw [hr] <;> rw [h] at hb
  · exact .inl ⟨hb.1 rfl, rfl⟩
  · simp only [State.base] at hb
    exact .inr ⟨by simp at hb; omega, by simp at hb; omega, rfl⟩

/-- SKP: skips on the level of the key, raises above 15 (R190). -/
theorem execSkp_cases (x : Reg) (s : State) :
    (∃ h : (s.reg x).toNat < 16, execSkp x s = .next
      (s.setPc (if s.key[(s.reg x).toNat]'h = true then s.pc + 2 else s.pc))) ∨
    (16 ≤ (s.reg x).toNat ∧ execSkp x s = .next (s.raise .invalidKeyIndex)) := by
  unfold execSkp
  rcases s.keyAt_cases (s.reg x) with ⟨h, hr⟩ | ⟨h, hr⟩ <;> rw [hr]
  · exact .inl ⟨h, by simp [State.skipIf_eq_setPc]⟩
  · exact .inr ⟨h, rfl⟩

/-- SKNP: skips when the key is up, raises above 15 (R191). -/
theorem execSknp_cases (x : Reg) (s : State) :
    (∃ h : (s.reg x).toNat < 16, execSknp x s = .next
      (s.setPc (if s.key[(s.reg x).toNat]'h = true then s.pc else s.pc + 2))) ∨
    (16 ≤ (s.reg x).toNat ∧ execSknp x s = .next (s.raise .invalidKeyIndex)) := by
  unfold execSknp
  rcases s.keyAt_cases (s.reg x) with ⟨h, hr⟩ | ⟨h, hr⟩ <;> rw [hr]
  · refine .inl ⟨h, ?_⟩
    cases hk : s.key[(s.reg x).toNat]'h <;> simp [State.skipIf_eq_setPc]
  · exact .inr ⟨h, rfl⟩

@[simp] theorem length_decimalDigits (b : Byte) : (decimalDigits b).length = 3 := rfl

@[simp] theorem State.length_block (s : State) (x : Reg) : (s.block x).length = x.val + 1 := by
  simp [State.block]

/-- The bytes of a register block are the registers (R201). -/
theorem State.getD_block (s : State) (x j : Reg) (h : j ≤ x) (d : Byte) : (s.block x).getD j.val d = s.reg j := by
  have hj : j.val < x.val + 1 := Nat.lt_succ_of_le h
  simp [State.block, State.reg, hj]

/-- LD B: stores the digits in bounds, raises otherwise (R200). -/
theorem execLdB_cases (x : Reg) (s : State) :
    (s.i.toNat + 2 ≤ 0xFFF ∧ execLdB x s = .next
      { s with mem := Memory.putBytes s.mem s.i.toNat (decimalDigits (s.reg x)) }) ∨
    (0xFFF < s.i.toNat + 2 ∧ execLdB x s = .next (s.raise .memoryOutOfBounds)) := by
  have hb := inBounds_iff s.base (decimalDigits (s.reg x)).length
  unfold execLdB
  rcases s.memWrite_cases s.base (decimalDigits (s.reg x)) with ⟨h, hr⟩ | ⟨h, hr⟩ <;> rw [hr] <;> rw [h] at hb <;>
    simp [State.base] at hb
  · exact .inl ⟨by omega, rfl⟩
  · exact .inr ⟨by omega, rfl⟩

/-- LD [I], VX: stores the block in bounds, raises otherwise (R201). -/
theorem execLdMemVx_cases (x : Reg) (s : State) :
    (s.i.toNat + x.val ≤ 0xFFF ∧ execLdMemVx x s = .next
      { s with mem := Memory.putBytes s.mem s.i.toNat (s.block x) }) ∨
    (0xFFF < s.i.toNat + x.val ∧ execLdMemVx x s = .next (s.raise .memoryOutOfBounds)) := by
  have hb := inBounds_iff s.base (s.block x).length
  unfold execLdMemVx
  rcases s.memWrite_cases s.base (s.block x) with ⟨h, hr⟩ | ⟨h, hr⟩ <;> rw [hr] <;> rw [h] at hb <;>
    simp [State.base] at hb
  · exact .inl ⟨by omega, rfl⟩
  · exact .inr ⟨by omega, rfl⟩

/-- LD VX, [I]: loads the block in bounds, raises otherwise (R202). -/
theorem execLdVxMem_cases (x : Reg) (s : State) :
    (s.i.toNat + x.val ≤ 0xFFF ∧ execLdVxMem x s = .next
      (s.setBlock (Memory.bytesAt s.mem s.i.toNat (x.val + 1)))) ∨
    (0xFFF < s.i.toNat + x.val ∧ execLdVxMem x s = .next (s.raise .memoryOutOfBounds)) := by
  have hb := inBounds_iff s.base (x.val + 1)
  unfold execLdVxMem
  rcases s.memRead_cases s.base (x.val + 1) with ⟨h, hr⟩ | ⟨h, hr⟩ <;> rw [hr] <;> rw [h] at hb <;>
    simp [State.base] at hb
  · exact .inl ⟨by omega, rfl⟩
  · exact .inr ⟨by omega, rfl⟩

/-! ## The key wait -/

/-- No key is pressed exactly when the search finds none (R195). -/
theorem State.lowestKey_eq_none (s : State) : s.lowestKey = none ↔ ∀ k : Fin 16, s.key[k] = false := by
  simp [State.lowestKey, List.find?_eq_none]

/-- The search finds the least pressed key (R195). -/
theorem State.lowestKey_eq_some (s : State) (k : Fin 16) :
    s.lowestKey = some k ↔ s.key[k] = true ∧ ∀ j : Fin 16, j < k → s.key[j] = false := by
  unfold State.lowestKey
  rw [List.find?_eq_some_iff_getElem]
  constructor
  · rintro ⟨hk, i, hi, rfl, hmin⟩
    refine ⟨hk, fun j hj => ?_⟩
    have hj' : j.val < i := by simpa [Fin.lt_def] using hj
    simpa using hmin j.val hj'
  · rintro ⟨hk, hmin⟩
    exact ⟨hk, k.val, by simp, by simp, fun j hj => by simpa using hmin ⟨j, by omega⟩ hj⟩

/-! ## The step -/

/-- What a step answers: the latched error on a faulted machine; the execute phase of the decoded word; or the fetch
error (R120, R121, R125). -/
theorem step_cases (s : State) :
    (∃ e, s.fault = some e ∧ step s = .fault (.faulted e)) ∨
    (s.fault = none ∧ s.pc.toNat ≤ 0xFFE ∧ step s = exec (decodeWord s.nextWord) (s.setPc (s.pc + 2))) ∨
    (s.fault = none ∧ 0xFFF ≤ s.pc.toNat ∧ step s = .next (s.raise .memoryOutOfBounds)) := by
  cases hf : s.fault with
  | some e => exact .inl ⟨e, rfl, by simp [step, hf]⟩
  | none =>
    rcases s.fetch_cases with ⟨h, hr⟩ | ⟨h, hr⟩
    · exact .inr (.inl ⟨rfl, h, by simp [step, hf, hr, State.nextWord]⟩)
    · exact .inr (.inr ⟨rfl, h, by simp [step, hf, hr]⟩)

/-- What the host's `step(rnd)` makes of a state: nothing on a faulted machine; otherwise the machine that `step` answers
with `rnd` given to it, the input beside it as it was (R120, R125, R126). -/
theorem stepOp_cases (rnd : Byte) (s : State) :
    ((∃ e, s.fault = some e) ∧ stepOp rnd s = s) ∨
    (s.fault = none ∧ ∀ t, step { s with rnd := { given := some rnd, drawn := 0 } } = .next t →
      stepOp rnd s = { s with machine := t.machine }) := by
  cases hf : s.fault with
  | some e => exact .inl ⟨⟨e, rfl⟩, by simp [stepOp, stepWith, step, hf]⟩
  | none => exact .inr ⟨rfl, fun t ht => by simp only [stepOp, stepWith, ht]⟩

end Sys2Proof.Machine
end

