-- ==== Sys2Proof/Laws/PerInstr.lean ====
section
/-! SUPPORT. A law of every instruction, constructor by constructor: its word is selected by the row of the opcode map
that carries its mnemonic (R94, R96), or, for the fall-through row, by none (R100). -/

namespace Sys2Proof.Laws.OpcodeRow

/-- The encoding of a well-formed instruction lies in its own row of R96, or, for `undefinedNop`, in no row. -/
def Statement (i : Instr) : Prop :=
  i.wellFormed = true →
    (∃ r ∈ opcodeMap, r.mnemonic = i.mnemonic ∧ r.selects (encode i)) ∨
    (i.mnemonic = "UNDEFINED_NOP" ∧ noRowSelects (encode i) = true)

/-- A word of shape `A` under the mask of its opcode nibble. -/
theorem encodeA_and (op : BitVec 4) (nnn : Addr) : encodeA op nnn &&& 0xF000 = op ++ (0 : BitVec 12) := by
  have h : (0xF000 : Word) = (0xF : BitVec 4) ++ (0 : BitVec 12) := by decide
  have h4 : op &&& 0xF = op := BitVec.and_allOnes
  rw [h, encodeA]
  show (op ++ nnn) &&& ((0xF : BitVec 4) ++ (0 : BitVec 12)) = _
  have hz : nnn &&& 0 = 0 := BitVec.and_zero
  rw [BitVec.and_append, h4, hz]

/-- A word of shape `I` under the mask of its opcode nibble. -/
theorem encodeI_and (op : BitVec 4) (x : Reg) (kk : Byte) : encodeI op x kk &&& 0xF000 = op ++ (0 : BitVec 12) := by
  have h : (0xF000 : Word) = (0xF : BitVec 4) ++ (0 : BitVec 4) ++ (0 : BitVec 8) := by decide
  have h4 : op &&& 0xF = op := BitVec.and_allOnes
  have h0 : op ++ (0 : BitVec 12) = op ++ (0 : BitVec 4) ++ (0 : BitVec 8) := by revert op; decide
  rw [h, encodeI, h0]
  show (op ++ nib x ++ kk) &&& ((0xF : BitVec 4) ++ (0 : BitVec 4) ++ (0 : BitVec 8)) = _
  have hx : nib x &&& 0 = 0 := BitVec.and_zero
  have hz : kk &&& 0 = 0 := BitVec.and_zero
  rw [BitVec.and_append, BitVec.and_append, h4, hx, hz]

theorem cls : Statement .cls := fun _ => .inl (by decide)
theorem ret : Statement .ret := fun _ => .inl (by decide)
theorem jp (nnn : Addr) : Statement (.jp nnn) := fun _ =>
  .inl ⟨⟨"JP", 0x1000, 0xF000⟩, by decide, rfl, encodeA_and _ nnn⟩
theorem call (nnn : Addr) : Statement (.call nnn) := fun _ =>
  .inl ⟨⟨"CALL", 0x2000, 0xF000⟩, by decide, rfl, encodeA_and _ nnn⟩
theorem ldI (nnn : Addr) : Statement (.ldI nnn) := fun _ =>
  .inl ⟨⟨"LD_I", 0xA000, 0xF000⟩, by decide, rfl, encodeA_and _ nnn⟩
theorem jpV0 (nnn : Addr) : Statement (.jpV0 nnn) := fun _ =>
  .inl ⟨⟨"JP_V0", 0xB000, 0xF000⟩, by decide, rfl, encodeA_and _ nnn⟩
theorem seImm (x : Reg) (kk : Byte) : Statement (.seImm x kk) := fun _ =>
  .inl ⟨⟨"SE_IMM", 0x3000, 0xF000⟩, by decide, rfl, encodeI_and _ x kk⟩
theorem sneImm (x : Reg) (kk : Byte) : Statement (.sneImm x kk) := fun _ =>
  .inl ⟨⟨"SNE_IMM", 0x4000, 0xF000⟩, by decide, rfl, encodeI_and _ x kk⟩
theorem ldImm (x : Reg) (kk : Byte) : Statement (.ldImm x kk) := fun _ =>
  .inl ⟨⟨"LD_IMM", 0x6000, 0xF000⟩, by decide, rfl, encodeI_and _ x kk⟩
theorem addImm (x : Reg) (kk : Byte) : Statement (.addImm x kk) := fun _ =>
  .inl ⟨⟨"ADD_IMM", 0x7000, 0xF000⟩, by decide, rfl, encodeI_and _ x kk⟩
theorem rnd (x : Reg) (kk : Byte) : Statement (.rnd x kk) := fun _ =>
  .inl ⟨⟨"RND", 0xC000, 0xF000⟩, by decide, rfl, encodeI_and _ x kk⟩
theorem seReg (x y : Reg) : Statement (.seReg x y) := fun _ =>
  .inl ⟨⟨"SE_REG", 0x5000, 0xF00F⟩, by decide, rfl, by revert x y; decide⟩
theorem ldReg (x y : Reg) : Statement (.ldReg x y) := fun _ =>
  .inl ⟨⟨"LD_REG", 0x8000, 0xF00F⟩, by decide, rfl, by revert x y; decide⟩
theorem orReg (x y : Reg) : Statement (.orReg x y) := fun _ =>
  .inl ⟨⟨"OR", 0x8001, 0xF00F⟩, by decide, rfl, by revert x y; decide⟩
theorem andReg (x y : Reg) : Statement (.andReg x y) := fun _ =>
  .inl ⟨⟨"AND", 0x8002, 0xF00F⟩, by decide, rfl, by revert x y; decide⟩
theorem xorReg (x y : Reg) : Statement (.xorReg x y) := fun _ =>
  .inl ⟨⟨"XOR", 0x8003, 0xF00F⟩, by decide, rfl, by revert x y; decide⟩
theorem addReg (x y : Reg) : Statement (.addReg x y) := fun _ =>
  .inl ⟨⟨"ADD_REG", 0x8004, 0xF00F⟩, by decide, rfl, by revert x y; decide⟩
theorem sub (x y : Reg) : Statement (.sub x y) := fun _ =>
  .inl ⟨⟨"SUB", 0x8005, 0xF00F⟩, by decide, rfl, by revert x y; decide⟩
theorem shr (x y : Reg) : Statement (.shr x y) := fun _ =>
  .inl ⟨⟨"SHR", 0x8006, 0xF00F⟩, by decide, rfl, by revert x y; decide⟩
theorem subn (x y : Reg) : Statement (.subn x y) := fun _ =>
  .inl ⟨⟨"SUBN", 0x8007, 0xF00F⟩, by decide, rfl, by revert x y; decide⟩
theorem shl (x y : Reg) : Statement (.shl x y) := fun _ =>
  .inl ⟨⟨"SHL", 0x800E, 0xF00F⟩, by decide, rfl, by revert x y; decide⟩
theorem sneReg (x y : Reg) : Statement (.sneReg x y) := fun _ =>
  .inl ⟨⟨"SNE_REG", 0x9000, 0xF00F⟩, by decide, rfl, by revert x y; decide⟩
theorem drw (x y : Reg) (n : Fin 16) : Statement (.drw x y n) := fun _ =>
  .inl ⟨⟨"DRW", 0xD000, 0xF000⟩, by decide, rfl, by revert x y n; decide⟩
theorem skp (x : Reg) : Statement (.skp x) := fun _ =>
  .inl ⟨⟨"SKP", 0xE09E, 0xF0FF⟩, by decide, rfl, by revert x; decide⟩
theorem sknp (x : Reg) : Statement (.sknp x) := fun _ =>
  .inl ⟨⟨"SKNP", 0xE0A1, 0xF0FF⟩, by decide, rfl, by revert x; decide⟩
theorem ldVxDt (x : Reg) : Statement (.ldVxDt x) := fun _ =>
  .inl ⟨⟨"LD_VX_DT", 0xF007, 0xF0FF⟩, by decide, rfl, by revert x; decide⟩
theorem ldVxK (x : Reg) : Statement (.ldVxK x) := fun _ =>
  .inl ⟨⟨"LD_VX_K", 0xF00A, 0xF0FF⟩, by decide, rfl, by revert x; decide⟩
theorem ldDtVx (x : Reg) : Statement (.ldDtVx x) := fun _ =>
  .inl ⟨⟨"LD_DT_VX", 0xF015, 0xF0FF⟩, by decide, rfl, by revert x; decide⟩
theorem ldStVx (x : Reg) : Statement (.ldStVx x) := fun _ =>
  .inl ⟨⟨"LD_ST_VX", 0xF018, 0xF0FF⟩, by decide, rfl, by revert x; decide⟩
theorem addI (x : Reg) : Statement (.addI x) := fun _ =>
  .inl ⟨⟨"ADD_I", 0xF01E, 0xF0FF⟩, by decide, rfl, by revert x; decide⟩
theorem ldF (x : Reg) : Statement (.ldF x) := fun _ =>
  .inl ⟨⟨"LD_F", 0xF029, 0xF0FF⟩, by decide, rfl, by revert x; decide⟩
theorem ldB (x : Reg) : Statement (.ldB x) := fun _ =>
  .inl ⟨⟨"LD_B", 0xF033, 0xF0FF⟩, by decide, rfl, by revert x; decide⟩
theorem ldMemVx (x : Reg) : Statement (.ldMemVx x) := fun _ =>
  .inl ⟨⟨"LD_MEM_VX", 0xF055, 0xF0FF⟩, by decide, rfl, by revert x; decide⟩
theorem ldVxMem (x : Reg) : Statement (.ldVxMem x) := fun _ =>
  .inl ⟨⟨"LD_VX_MEM", 0xF065, 0xF0FF⟩, by decide, rfl, by revert x; decide⟩
theorem undefinedNop (w : Word) : Statement (.undefinedNop w) := fun h => .inr ⟨rfl, h⟩

end Sys2Proof.Laws.OpcodeRow
end

