-- ==== Sys2Proof/Tests/Slice0.lean ====
section
/-! SUPPORT. The model's own tests: words written out from the patterns of R96, the vectors of spec/95_test_vectors.md
(named in each comment; they are the spec's, not this model's output), the refusals of the checks, and, for every
statement with hypotheses, concrete states that meet them. -/

namespace Sys2Proof.Tests

open Sys2Proof.Machine

/-! ## Helpers -/

/-- The reset state with some registers set. -/
def regs (rs : List (Reg × Byte)) : State := rs.foldl (fun s r => s.setReg r.1 r.2) State.reset

/-- A state with bytes placed in memory. -/
def withBytes (s : State) (a : Nat) (bs : List Byte) : State := { s with mem := Memory.putBytes s.mem a bs }

/-- The state with the byte `rnd` given to its coming step. -/
def giving (rnd : Byte) (s : State) : State := { s with rnd := s.rnd.give rnd }

/-- One step on the word placed at `PC` answers a next state that satisfies `p`. -/
def steps (s : State) (w : Nat) (p : State → Bool) : Bool :=
  match step (s.withFetchWord 16 w) with
  | .next t => p t
  | .fault _ => false
  | .refused _ => false

/-- The state that an outcome answers, or the given one. -/
def nextOr (s : State) (o : Result) : State :=
  match o with
  | .next t => t
  | .fault _ => s
  | .refused _ => s

/-- The pixels that are set among some indices. -/
def lit (s : State) (ps : List (Fin 2048)) : List (Fin 2048) := ps.filter s.pixel

/-! ## Checks refuse what is ill formed -/

theorem test_wellFormed_refuses_cls_word : (Instr.undefinedNop 0x00E0).wellFormed = false := by decide
theorem test_wellFormed_refuses_add_word : (Instr.undefinedNop 0x8124).wellFormed = false := by decide
theorem test_wellFormed_refuses_load_word : (Instr.undefinedNop 0xF465).wellFormed = false := by decide
theorem test_wellFormed_accepts_undefined_word : (Instr.undefinedNop 0x5121).wellFormed = true := by decide
theorem test_wellFormed_accepts_every_register : (Instr.drw 15 15 15).wellFormed = true := by decide
theorem test_decode_refuses_truncated : decode [0x00] = .error .truncated := by decide
theorem test_decode_refuses_empty : decode [] = .error .truncated := by decide
theorem test_decode_keeps_the_rest : decode [0x61, 0x22, 0x77] = .ok (.ldImm 1 0x22, [0x77]) := by decide
theorem test_memory_wf_refuses_unsorted : ¬ Memory.wf [(0x301, 1), (0x300, 1)] := by decide
theorem test_memory_wf_refuses_outside : ¬ Memory.wf [(0x1000, 1)] := by decide
theorem test_memory_wf_refuses_reset_contents : ¬ Memory.wf [(0x000, 0xF0)] := by decide

/-! ## Decoding: a word of every row of R96, written out from its pattern -/

theorem test_decode_control : decodeWord 0x00E0 = .cls ∧ decodeWord 0x00EE = .ret ∧ decodeWord 0x1234 = .jp 0x234 ∧
    decodeWord 0x2300 = .call 0x300 ∧ decodeWord 0xBFFF = .jpV0 0xFFF := by decide
theorem test_decode_skips : decodeWord 0x332A = .seImm 3 0x2A ∧ decodeWord 0x432A = .sneImm 3 0x2A ∧
    decodeWord 0x5120 = .seReg 1 2 ∧ decodeWord 0x9AB0 = .sneReg 10 11 := by decide
theorem test_decode_moves : decodeWord 0x6A7F = .ldImm 10 0x7F ∧ decodeWord 0x7201 = .addImm 2 1 ∧
    decodeWord 0x8140 = .ldReg 1 4 ∧ decodeWord 0x8121 = .orReg 1 2 ∧ decodeWord 0x8122 = .andReg 1 2 ∧
    decodeWord 0x8123 = .xorReg 1 2 := by decide
theorem test_decode_arith : decodeWord 0x8124 = .addReg 1 2 ∧ decodeWord 0x8125 = .sub 1 2 ∧
    decodeWord 0x8126 = .shr 1 2 ∧ decodeWord 0x8127 = .subn 1 2 ∧ decodeWord 0x812E = .shl 1 2 := by decide
theorem test_decode_index : decodeWord 0xA2F0 = .ldI 0x2F0 ∧ decodeWord 0xC30F = .rnd 3 0x0F ∧
    decodeWord 0xF21E = .addI 2 ∧ decodeWord 0xF429 = .ldF 4 := by decide
theorem test_decode_display : decodeWord 0xD345 = .drw 3 4 5 := by decide
theorem test_decode_keys_timers : decodeWord 0xE59E = .skp 5 ∧ decodeWord 0xE5A1 = .sknp 5 ∧
    decodeWord 0xF307 = .ldVxDt 3 ∧ decodeWord 0xF40A = .ldVxK 4 ∧ decodeWord 0xF315 = .ldDtVx 3 ∧
    decodeWord 0xF318 = .ldStVx 3 := by decide
theorem test_decode_memory : decodeWord 0xF233 = .ldB 2 ∧ decodeWord 0xF255 = .ldMemVx 2 ∧
    decodeWord 0xFF65 = .ldVxMem 15 := by decide
/-- The undefined words that S1 of the vectors names. -/
theorem test_decode_undefined : (([0x0000, 0x0123, 0x00E1, 0x00FE, 0x5121, 0x8008, 0x800F, 0x9001, 0xE000, 0xE19F,
    0xF000, 0xF164, 0xFFFF] : List Word).all fun w => decodeWord w == .undefinedNop w) = true := by decide
theorem test_decodeTableWord : decodeTableWord 16 0xD123 = some (.drw 1 2 3) ∧
    decodeTableWord 16 0 = some (.undefinedNop 0) := by decide

/-! ## One step, from the vectors of spec/95_test_vectors.md -/

/-- P16. -/
theorem test_cls : steps { regs [(15, 1)] with fb := Framebuffer.toggle (Framebuffer.toggle Framebuffer.clear 100) 2047 }
    0x00E0 (fun t => lit t [100, 2047] == [] && t.reg 15 == 1 && t.pc == 0x202) = true := by decide +kernel
/-- C8. -/
theorem test_ret : steps { State.reset with sp := 3, stack := State.reset.stack.set 2 0x0456 } 0x00EE
    (fun t => t.sp == 2 && t.pc == 0x456 && t.stack[2] == 0x0456) = true := by decide
/-- C7. -/
theorem test_ret_underflow : steps State.reset 0x00EE
    (fun t => t.fault == some .stackUnderflow && t.sp == 0 && t.pc == 0x202) = true := by decide
/-- C2. -/
theorem test_jp : steps State.reset 0x1FFF (fun t => t.pc == 0x0FFF && t.fault == none) = true := by decide
/-- C4. -/
theorem test_call : steps { State.reset with sp := 15 } 0x2ABC
    (fun t => t.stack[15] == 0x0202 && t.sp == 16 && t.pc == 0xABC) = true := by decide
/-- C5. -/
theorem test_call_overflow : steps { State.reset with sp := 16 } 0x2ABC
    (fun t => t.fault == some .stackOverflow && t.sp == 16 && t.pc == 0x202) = true := by decide
/-- C10. -/
theorem test_jpV0 : steps (regs [(0, 0xFF)]) 0xBFFF (fun t => t.pc == 0x10FE && t.fault == none) = true := by decide
/-- K1, K2. -/
theorem test_seImm : steps (regs [(3, 0x2A)]) 0x332A (fun t => t.pc == 0x204) = true ∧
    steps (regs [(3, 0x2B)]) 0x332A (fun t => t.pc == 0x202) = true := by decide
/-- K3, K4. -/
theorem test_sneImm : steps (regs [(3, 0x2A)]) 0x432A (fun t => t.pc == 0x202) = true ∧
    steps State.reset 0x432A (fun t => t.pc == 0x204) = true := by decide
/-- K5, K6. -/
theorem test_seReg : steps (regs [(1, 7), (2, 7)]) 0x5120 (fun t => t.pc == 0x204) = true ∧
    steps (regs [(1, 7), (2, 8)]) 0x5120 (fun t => t.pc == 0x202) = true := by decide
/-- K8, K9. -/
theorem test_sneReg : steps (regs [(1, 7), (2, 8)]) 0x9120 (fun t => t.pc == 0x204) = true ∧
    steps (regs [(1, 7), (2, 7)]) 0x9120 (fun t => t.pc == 0x202) = true := by decide
/-- M1. -/
theorem test_ldImm : steps State.reset 0x6A7F (fun t => t.reg 10 == 0x7F && t.pc == 0x202) = true := by decide
/-- M4: adding 0 clears the flag. -/
theorem test_addImm_zero_clears_flag : steps (regs [(2, 0x80), (15, 1)]) 0x7200
    (fun t => t.reg 2 == 0x80 && t.reg 15 == 0) = true := by decide
/-- M7: `X = 0xF`. -/
theorem test_addImm_to_VF : steps (regs [(15, 0xFF)]) 0x7F01 (fun t => t.reg 15 == 1) = true := by decide
/-- M9. -/
theorem test_ldReg : steps (regs [(4, 0x33)]) 0x8140 (fun t => t.reg 1 == 0x33 && t.reg 4 == 0x33) = true := by decide
/-- M11. -/
theorem test_or : steps (regs [(1, 0xF0), (2, 0x0F), (15, 1)]) 0x8121
    (fun t => t.reg 1 == 0xFF && t.reg 15 == 1) = true := by decide
/-- M12. -/
theorem test_and : steps (regs [(1, 0xF3), (2, 0x3F), (15, 1)]) 0x8122
    (fun t => t.reg 1 == 0x33 && t.reg 15 == 1) = true := by decide
/-- M13. -/
theorem test_xor : steps (regs [(1, 0xFF), (2, 0x0F), (15, 1)]) 0x8123
    (fun t => t.reg 1 == 0xF0 && t.reg 15 == 1) = true := by decide
/-- A1. -/
theorem test_addReg : steps (regs [(1, 0xC8), (2, 0x64)]) 0x8124
    (fun t => t.reg 1 == 0x2C && t.reg 15 == 1) = true := by decide
/-- A6: the sum is lost when `X = 0xF`. -/
theorem test_addReg_to_VF : steps (regs [(15, 0x07), (1, 1)]) 0x8F14 (fun t => t.reg 15 == 0) = true := by decide
/-- A10. -/
theorem test_sub_borrow : steps (regs [(2, 1)]) 0x8125 (fun t => t.reg 1 == 0xFF && t.reg 15 == 0) = true := by decide
/-- A9: equal operands. -/
theorem test_sub_equal : steps (regs [(1, 7), (2, 7)]) 0x8125
    (fun t => t.reg 1 == 0 && t.reg 15 == 1) = true := by decide
/-- A15. -/
theorem test_subn : steps (regs [(1, 3), (2, 5)]) 0x8127
    (fun t => t.reg 1 == 2 && t.reg 2 == 5 && t.reg 15 == 1) = true := by decide
/-- A16. -/
theorem test_subn_borrow : steps (regs [(1, 5), (2, 3)]) 0x8127
    (fun t => t.reg 1 == 0xFE && t.reg 15 == 0) = true := by decide
/-- A22. -/
theorem test_shr : steps (regs [(1, 0xFF)]) 0x8106 (fun t => t.reg 1 == 0x7F && t.reg 15 == 1) = true := by decide
/-- A23: `V[Y]` plays no part. -/
theorem test_shr_ignores_y : steps (regs [(1, 0x80), (2, 0xFF)]) 0x8126
    (fun t => t.reg 1 == 0x40 && t.reg 2 == 0xFF && t.reg 15 == 0) = true := by decide
/-- A27: bit 7 is not recorded. -/
theorem test_shl_drops_bit_seven : steps (regs [(1, 0x80), (15, 1)]) 0x810E
    (fun t => t.reg 1 == 0 && t.reg 15 == 0) = true := by decide
/-- A28: bit 3 is the flag. -/
theorem test_shl_flags_bit_three : steps (regs [(1, 0x08)]) 0x810E
    (fun t => t.reg 1 == 0x10 && t.reg 15 == 1) = true := by decide
/-- I1. -/
theorem test_ldI : steps { State.reset with i := 0xFFFF } 0xA2F0 (fun t => t.i == 0x02F0) = true := by decide
/-- I5. -/
theorem test_addI_wraps : steps { regs [(2, 0xFF)] with i := 0xFF80 } 0xF21E (fun t => t.i == 0x007F) = true := by decide
/-- I3. -/
theorem test_addI_no_flag : steps { regs [(2, 1)] with i := 0x0FFF } 0xF21E
    (fun t => t.i == 0x1000 && t.reg 15 == 0 && t.fault == none) = true := by decide
/-- I9. -/
theorem test_ldF : steps (regs [(4, 0xFF)]) 0xF429 (fun t => t.i == 0x04FB) = true := by decide
/-- I10 and I13, with the spec's `rnd` given to the step. -/
theorem test_rnd_mask : steps (giving 0xB7 State.reset) 0xC30F (fun t => t.reg 3 == 0x07 && t.pc == 0x202) = true ∧
    steps (giving 0xFF State.reset) 0xCFF0 (fun t => t.reg 15 == 0xF0) = true := by decide
/-- I12, as the host's `step(rnd)`; the input that stood beside the machine plays no part. -/
theorem test_rnd_host_step : ((stepOp 0xA5 (giving 0x11 (State.reset.withFetchWord 16 0xC3FF))).reg 3 = 0xA5) ∧
    ((stepOp 0x5A (giving 0x11 (State.reset.withFetchWord 16 0xC3FF))).reg 3 = 0x5A) := by decide
/-- P3: start coordinates and pixels wrap. -/
theorem test_drw_wraps : steps (withBytes { regs [(0, 0xFF), (1, 0xFF)] with i := 0x300 } 0x300 [0xC0]) 0xD011
    (fun t => lit t [0, 63, 1983, 1984, 1985, 2046, 2047] == [1984, 2047] && t.reg 15 == 0) = true := by decide +kernel
/-- P8: a collision. -/
theorem test_drw_collision : steps { withBytes { State.reset with i := 0x300 } 0x300 [0xC0] with
      fb := Framebuffer.toggle Framebuffer.clear 1 } 0xD011
    (fun t => lit t [0, 1, 2] == [0] && t.reg 15 == 1) = true := by decide
/-- T5: no masking of the index. -/
theorem test_skp_raises : steps { regs [(3, 0xFF)] with key := State.reset.key.set 15 true } 0xE39E
    (fun t => t.fault == some .invalidKeyIndex && t.pc == 0x202) = true := by decide
/-- T3. -/
theorem test_skp : steps { regs [(3, 15)] with key := State.reset.key.set 15 true } 0xE39E
    (fun t => t.pc == 0x204) = true := by decide
/-- T7. -/
theorem test_sknp : steps (regs [(3, 5)]) 0xE3A1 (fun t => t.pc == 0x204) = true := by decide
/-- T8. -/
theorem test_sknp_raises : steps (regs [(3, 16)]) 0xE3A1
    (fun t => t.fault == some .invalidKeyIndex && t.pc == 0x202) = true := by decide
/-- T10. -/
theorem test_ldVxDt : steps { State.reset with dt := 0x2A } 0xF307
    (fun t => t.reg 3 == 0x2A && t.dt == 0x2A) = true := by decide
/-- T11. -/
theorem test_ldDtVx : steps { regs [(3, 0x10)] with st := 7 } 0xF315 (fun t => t.dt == 0x10 && t.st == 7) = true := by decide
/-- T12. -/
theorem test_ldStVx : steps { regs [(3, 0x10)] with dt := 7 } 0xF318 (fun t => t.st == 0x10 && t.dt == 7) = true := by decide
/-- T15. -/
theorem test_ldVxK : steps { regs [(3, 0x77)] with key := (State.reset.key.set 7 true).set 12 true } 0xF30A
    (fun t => t.reg 3 == 7 && t.pc == 0x202) = true := by decide
/-- T19: no key, at the last fetch address. -/
theorem test_ldVxK_waits : steps { State.reset with pc := 0xFFE } 0xF30A
    (fun t => t.pc == 0xFFE && t.reg 3 == 0 && t.fault == none) = true := by decide
/-- S4. -/
theorem test_ldB : steps (withBytes { regs [(3, 0x9D)] with i := 0x300 } 0x303 [0xEE]) 0xF333
    (fun t => Memory.bytesAt t.mem 0x300 4 == [1, 5, 7, 0xEE] && t.i == 0x300) = true := by decide
/-- B4: no 16-bit wrap. -/
theorem test_ldB_no_wrap : steps { regs [(3, 255)] with i := 0xFFFF } 0xF333
    (fun t => t.fault == some .memoryOutOfBounds && t.byteAt 0 == 0xF0 && t.byteAt 1 == 0x90) = true := by decide
/-- B12: the store changes its own second byte and the next instruction's first. -/
theorem test_ldMemVx : steps { regs [(0, 0x12), (1, 0x34)] with i := 0x201 } 0xF155
    (fun t => Memory.bytesAt t.mem 0x200 3 == [0xF1, 0x12, 0x34] && t.i == 0x201) = true := by decide
/-- B9. -/
theorem test_ldMemVx_raises : steps (withBytes { State.reset with i := 0xFF1 } 0xFF1 [0x99]) 0xFF55
    (fun t => t.fault == some .memoryOutOfBounds && t.byteAt 0xFF1 == 0x99) = true := by decide
/-- B13. -/
theorem test_ldVxMem : steps (withBytes { regs [(3, 0x77)] with i := 0x300 } 0x300 [1, 2, 3, 4]) 0xF265
    (fun t => t.reg 0 == 1 && t.reg 1 == 2 && t.reg 2 == 3 && t.reg 3 == 0x77) = true := by decide
/-- B15. -/
theorem test_ldVxMem_raises : steps { regs [(0, 0x77), (1, 0x78)] with i := 0xFFF } 0xF165
    (fun t => t.fault == some .memoryOutOfBounds && t.reg 0 == 0x77 && t.reg 1 == 0x78) = true := by decide
/-- F7: 5XYn with `n` not 0 is a no-op, not a compare. -/
theorem test_undefinedNop : steps (regs [(1, 7), (2, 7)]) 0x5121 (fun t => t.pc == 0x202) = true := by decide

/-! ## The step and the host operations -/

/-- F1 and the second step of it. -/
theorem test_step_last_fetch_address : steps { State.reset with pc := 0xFFE } 0x6001
    (fun t => t.reg 0 == 1 && t.pc == 0x1000 && t.fault == none &&
      (nextOr t (step t)).fault == some .memoryOutOfBounds) = true := by decide
/-- F3: an odd fetch address. -/
theorem test_step_odd_pc : steps { State.reset with pc := 0x201 } 0x6122
    (fun t => t.reg 1 == 0x22 && t.pc == 0x203) = true := by decide
/-- H2's length check, and H3. -/
theorem test_load : (loadOp [0x12, 0x34] State.reset).mem = [(0x200, 0x12), (0x201, 0x34)] ∧
    (loadOp [] State.reset).mem = [] ∧
    (loadOp (List.replicate 3585 0x01) State.reset).fault = some .imageTooLarge := by decide +kernel
/-- H4, H5, H6, H7. -/
theorem test_setKey : (setKeyOp 15 true State.reset).key[15] = true ∧
    (setKeyOp 16 true State.reset).fault = some .invalidKeyIndex ∧
    (setKeyOp (-1) true State.reset).fault = some .invalidKeyIndex ∧
    (setKeyOp 15 false (setKeyOp 16 true (setKeyOp 15 true State.reset))).key[15] = true ∧
    (resetOp defaultFont (setKeyOp 16 true State.reset)).fault = none := by decide
/-- S8. -/
theorem test_tickTimers : ((tickTimersOp { State.reset with dt := 5, st := 1 }).dt = 4) ∧
    ((tickTimersOp { State.reset with dt := 5, st := 1 }).st = 0) ∧ ((tickTimersOp State.reset).dt = 0) ∧
    ((tickTimersOp { State.reset with dt := 255 }).dt = 254) := by decide
/-- The default font of R33: the first byte of digit 0, the last byte of digit F, and the byte after the font. -/
theorem test_font : resetByte 0 = 0xF0 ∧ resetByte 0x4F = 0x80 ∧ resetByte 0x50 = 0 := by decide

/-! ## Witnesses: states that meet the hypotheses of the statements -/

/-- DecodeOfEncodeIsIdentity. -/
theorem witness_DecodeOfEncodeIsIdentity : (Instr.drw 15 0 9).wellFormed = true ∧
    (Instr.undefinedNop 0xFFFF).wellFormed = true := by decide
/-- DecodeFollowsTheOpcodeMap: a word that a row selects, and one that none does. -/
theorem witness_DecodeFollowsTheOpcodeMap :
    (∃ r ∈ opcodeMap, r.selects 0x8124 ∧ (decodeWord 0x8124).mnemonic = r.mnemonic) ∧
    (∀ r ∈ opcodeMap, ¬ r.selects 0x800F) := by decide
/-- StepRunsTheBigEndianWordAtPc, at the last fetch address. -/
theorem witness_StepRunsTheBigEndianWordAtPc : ∃ s : State, s.fault = none ∧ s.pc.toNat = 0xFFE :=
  ⟨{ State.reset with pc := 0xFFE }, by decide⟩
/-- StepRunsTheEncodedInstruction. -/
theorem witness_StepRunsTheEncodedInstruction : ∃ s : State, (Instr.addReg 1 2).wellFormed = true ∧ s.fault = none ∧
    s.pc.toNat ≤ 0xFFE ∧
    wordOfBytes (s.byteAt s.pc.toNat) (s.byteAt (s.pc.toNat + 1)) = encode (.addReg 1 2) :=
  ⟨State.reset.withFetchWord 16 0x8124, by decide⟩
/-- FetchOutOfBoundsLatchesTheError, at its lower boundary. -/
theorem witness_FetchOutOfBoundsLatchesTheError : ∃ s : State, s.fault = none ∧ s.pc.toNat = 0xFFF :=
  ⟨{ State.reset with pc := 0xFFF }, by decide⟩
/-- UndefinedWordOnlyAdvancesPc: the reset state itself. -/
theorem witness_UndefinedWordOnlyAdvancesPc : State.reset.fault = none ∧ State.reset.pc.toNat ≤ 0xFFE ∧
    ∀ r ∈ opcodeMap, ¬ r.selects
      (wordOfBytes (State.reset.byteAt State.reset.pc.toNat) (State.reset.byteAt (State.reset.pc.toNat + 1))) := by
  decide
/-- StepHasNextExactlyWithoutFault: both kinds of state. -/
theorem witness_StepHasNextExactlyWithoutFault : State.reset.fault = none ∧
    (State.reset.raise .stackOverflow).fault = some .stackOverflow := by decide
/-- CallPushesTheAdvancedPc: the empty stack and the last free slot. -/
theorem witness_CallPushesTheAdvancedPc : State.reset.sp.val = 0 ∧ ∃ s : State, s.sp.val = 15 :=
  ⟨by decide, { State.reset with sp := 15 }, by decide⟩
/-- ReturnPopsTheTopSlot: one entry and the full stack. -/
theorem witness_ReturnPopsTheTopSlot : (∃ s : State, s.sp.val = 1) ∧ ∃ s : State, s.sp.val = 16 :=
  ⟨⟨{ State.reset with sp := 1 }, by decide⟩, { State.reset with sp := 16 }, by decide⟩
/-- StackErrorsAreLatchedPrecisely: one state for each clause. -/
theorem witness_StackErrorsAreLatchedPrecisely : (∃ s : State, s.sp.val = 16) ∧ State.reset.sp.val = 0 :=
  ⟨⟨{ State.reset with sp := 16 }, by decide⟩, by decide⟩
/-- ReturnUndoesCall, with the state of the call itself. -/
theorem witness_ReturnUndoesCall : ∃ s t u : State, s.sp.val < 16 ∧ exec (.call 0x300) s = .next t ∧ Same .stack t u :=
  ⟨State.reset, _, _, by decide, rfl, rfl, fun _ => rfl⟩
/-- The adds, subtractions and shifts: a destination other than `VF`, and `VF` itself. -/
theorem witness_result_register : ((1 : Reg) ≠ VF) ∧ ((15 : Reg) = VF) := by decide
/-- RandomWritesAMaskedDraw: a mask bit that is 0, a state whose next word is a CXKK, and another instruction that runs. -/
theorem witness_RandomWritesAMaskedDraw : (0x0F : Byte).getLsbD 4 = false ∧
    (∃ s : State, s.fault = none ∧ s.pc.toNat ≤ 0xFFE ∧ decodeWord s.nextWord = .rnd 3 0x0F) ∧
    (∀ x kk, Instr.cls ≠ .rnd x kk) ∧ ∃ t : State, exec .cls State.reset = .next t :=
  ⟨by decide, ⟨State.reset.withFetchWord 16 0xC30F, by decide⟩, by simp, _, rfl⟩
/-- DrawTogglesExactlyTheSprite: no row at the largest `I`, fifteen rows at the last legal base, and a covered and an
uncovered pixel, the covered one set and unset. -/
theorem witness_DrawTogglesExactlyTheSprite :
    (1 ≤ (0 : Fin 16).val → 0xFFFF + (0 : Fin 16).val - 1 ≤ 0xFFF) ∧
    (1 ≤ (15 : Fin 16).val → 0xFF1 + (15 : Fin 16).val - 1 ≤ 0xFFF) ∧
    covers State.reset 0 1 5 0 ∧ State.reset.pixel 0 = false ∧
    (∃ s : State, covers s 0 1 5 0 ∧ s.pixel 0 = true) :=
  ⟨by decide, by decide, ⟨0, 0, by decide⟩, by decide,
    { State.reset with fb := Framebuffer.toggle Framebuffer.clear 0 }, ⟨0, 0, by decide⟩, by decide⟩
/-- DrawTogglesExactlyTheSprite: a draw of no row covers no pixel. -/
theorem witness_draw_covers_nothing : ¬ covers State.reset 0 1 0 0 := fun ⟨_, _, h, _⟩ => by simp at h
/-- DrawingTwiceRestoresTheScreen, with a register and with `VF` as a coordinate. -/
theorem witness_DrawingTwiceRestoresTheScreen : ∃ s t u : State, exec (.drw 0 15 5) s = .next t ∧
    t.reg 0 = s.reg 0 ∧ t.reg 15 = s.reg 15 ∧ exec (.drw 0 15 5) t = .next u :=
  ⟨State.reset, _, _, rfl, by decide, by decide, rfl⟩
/-- KeyTestsSkipOnTheKeyLevel and KeyTestsAboveFifteenRaise: the indices on both sides of the bound. -/
theorem witness_KeyTests : ((regs [(3, 15)]).reg 3).toNat < 16 ∧ ((regs [(3, 16)]).reg 3).toNat > 15 := by decide
/-- KeyWaitTakesTheLowestKeyOrRewinds: a least key, and no key. -/
theorem witness_KeyWaitTakesTheLowestKeyOrRewinds :
    (∃ s : State, s.key[(15 : Fin 16)] = true ∧ ∀ j : Fin 16, j < 15 → s.key[j] = false) ∧
    (∀ k : Fin 16, State.reset.key[k] = false) :=
  ⟨⟨{ State.reset with key := State.reset.key.set 15 true }, by decide⟩, by decide⟩
/-- WaitingStepLeavesTheWholeState. -/
theorem witness_WaitingStepLeavesTheWholeState : ∃ s : State, s.fault = none ∧ s.pc.toNat ≤ 0xFFE ∧
    decodeWord s.nextWord = .ldVxK 3 ∧ ∀ k : Fin 16, s.key[k] = false :=
  ⟨State.reset.withFetchWord 16 0xF30A, by decide⟩
/-- BcdStoresThreeDigits, BlockStoreCopiesRegisters, BlockLoadCopiesMemory, at the last legal base. -/
theorem witness_in_bounds : (0xFFD : Word).toNat + 2 ≤ 0xFFF ∧ (0xFF0 : Word).toNat + (15 : Reg).val ≤ 0xFFF ∧
    ∃ s : State, s.i = 0xFFD ∧ s.i.toNat + 2 ≤ 0xFFF := ⟨by decide, by decide, { State.reset with i := 0xFFD }, by decide⟩
/-- OutOfBoundsAccessesWriteNothing: the first bad base of every clause. -/
theorem witness_OutOfBoundsAccessesWriteNothing : ∃ s u v : State,
    (1 ≤ (15 : Fin 16).val ∧ s.i.toNat + (15 : Fin 16).val - 1 > 0xFFF) ∧ u.i.toNat + 2 > 0xFFF ∧
    v.i.toNat + (15 : Reg).val > 0xFFF :=
  ⟨{ State.reset with i := 0xFF2 }, { State.reset with i := 0xFFE }, { State.reset with i := 0xFF1 }, by decide⟩
/-- BlockRoundTripRestoresRegisters. -/
theorem witness_BlockRoundTripRestoresRegisters : ∃ s t u : State, s.i.toNat + (2 : Reg).val ≤ 0xFFF ∧
    exec (.ldMemVx 2) s = .next t ∧ Same .mem t u ∧ Same .i t u :=
  ⟨{ State.reset with i := 0x300 }, _, _, by decide, rfl, fun _ => rfl, rfl⟩
/-- StoredCodeIsFetchedNext. -/
theorem witness_StoredCodeIsFetchedNext : ∃ s t : State, s.fault = none ∧ 1 ≤ (1 : Reg).val ∧ s.i = s.pc ∧
    s.i.toNat + (1 : Reg).val ≤ 0xFFF ∧ exec (.ldMemVx 1) s = .next t :=
  ⟨{ State.reset with i := 0x200 }, _, by decide, by decide, by decide, by decide, rfl⟩
/-- ExecWritesOnlyTheAccessMatrix, OnlySevenInstructionsWriteTheFlag, NoInstructionReadsTheSoundTimer: a next state, a
flag written without an error, and a register that is no destination. -/
theorem witness_exec_next : ∃ t : State, exec (.addReg 1 2) State.reset = .next t ∧
    isDestination (.addReg 1 2) 3 = false ∧ writesFlag (.addReg 1 2) = true ∧ (3 : Reg) ≠ VF ∧
    raises (.addReg 1 2) State.reset = none := ⟨_, rfl, by decide⟩
/-- ExecRaisesExactlyTheTable and ErrorsArePrecise: a healthy state and an error latched from it. -/
theorem witness_ErrorsArePrecise : ∃ t : State, State.reset.fault = none ∧ exec .ret State.reset = .next t ∧
    t.fault = some .stackUnderflow := ⟨_, by decide, rfl, by decide⟩
/-- OnlyThreeInstructionsReadTheKeys. -/
theorem witness_OnlyThreeInstructionsReadTheKeys : ∃ t : State, (∀ x, Instr.cls ≠ .skp x) ∧ (∀ x, Instr.cls ≠ .sknp x) ∧
    (∀ x, Instr.cls ≠ .ldVxK x) ∧ exec .cls State.reset = .next t := ⟨_, by simp, by simp, by simp, rfl⟩
/-- StepKeepsMemoryCanonical and StepKeepsCountersInRange: a canonical memory with entries, counters at their bounds, and
a step that stores. -/
theorem witness_StepKeepsInvariants : ∃ s t : State, s.memoryCanonical ∧ s.countersInRange ∧ step s = .next t ∧
    s.mem.length = 2 :=
  ⟨State.reset.withFetchWord 16 0xF055, _, by decide, by decide, rfl, by decide⟩
/-- StepKeepsCountersInRange, at its upper bounds. -/
theorem witness_counters_at_bounds : ∃ s : State, s.countersInRange ∧ s.pc.toNat = 0x10FE ∧ s.stack[0].toNat = 0x1000 :=
  ⟨{ State.reset with pc := 0x10FE, stack := State.reset.stack.set 0 0x1000 }, by decide⟩
/-- FinishedStatesStayFinished (C1). -/
theorem witness_FinishedStatesStayFinished : (State.reset.withFetchWord 16 0x1200).finished := by decide
/-- LoadIsAllOrNothing: the empty image, the longest, and the first too long. -/
theorem witness_LoadIsAllOrNothing : State.reset.fault = none ∧ ([] : List Byte).length ≤ 3584 ∧
    (List.replicate 3584 (1 : Byte)).length ≤ 3584 ∧ (List.replicate 3585 (1 : Byte)).length > 3584 :=
  ⟨by decide, by decide, by rw [List.length_replicate], by rw [List.length_replicate]; decide⟩
/-- SetKeySetsOneLevel: both ends of the range, and the indices next to them. -/
theorem witness_SetKeySetsOneLevel : State.reset.fault = none ∧ (0 : Int) = ((0 : Fin 16).val : Int) ∧
    (15 : Int) = ((15 : Fin 16).val : Int) ∧ ((-1 : Int) < 0) ∧ ((16 : Int) > 15) := by decide
/-- TimersDecayToZeroAndStay: a healthy state with running timers. -/
theorem witness_TimersDecayToZeroAndStay : ∃ s : State, s.fault = none ∧ s.dt = 5 ∧ s.st = 1 :=
  ⟨{ State.reset with dt := 5, st := 1 }, by decide⟩
/-- FaultIsStickyUntilReset. -/
theorem witness_FaultIsStickyUntilReset : (State.reset.raise .imageTooLarge).fault = some .imageTooLarge ∧
    HostOp.step 0 ≠ .reset := by decide
/-- PortsShowTheState: a state for every code. -/
theorem witness_PortsShowTheState : State.reset.fault = none ∧
    ∀ e ∈ [FatalError.stackOverflow, .stackUnderflow, .memoryOutOfBounds, .invalidKeyIndex, .imageTooLarge],
      (State.reset.raise e).fault = some e := by decide

end Sys2Proof.Tests
end

section
/-! The operand fields of an instruction word. -/

namespace Sys2Proof.Proofs

/-- Settles O4: each field by its arithmetic law under `Laws/Word.lean`. -/
theorem fieldsStandAtTheirBitPositions : Obligations.FieldsStandAtTheirBitPositions := fun w =>
  ⟨fieldX_val w, fieldY_val w, fieldN_val w, fieldKK_toNat w, fieldNNN_toNat w⟩

end Sys2Proof.Proofs
end

section
/-! What an execute phase leaves unchanged, as equal data: the strong form of the frames of `Safety.lean`, from which
the access matrix (R37) and the step invariants follow. -/

namespace Sys2Proof.Proofs

open Sys2Proof.Machine

/-! ## Outcomes -/

/-- An execution answers at most one next state. -/
theorem eq_of_next {o : Result} {t u : State} (ht : o = .next t) (hu : o = .next u) : t = u :=
  Host.Outcome.next.inj (ht.symm.trans hu)

/-- The key wait takes the least pressed key into `V[X]` (R195). -/
theorem execLdVxK_of_some {s : State} {k : Fin 16} (x : Reg) (h : s.lowestKey = some k) :
    execLdVxK x s = .next (s.setReg x (BitVec.ofNat 8 k.val)) := by
  simp [execLdVxK, h]

/-- The key wait rewinds the counter when no key is pressed (R195). -/
theorem execLdVxK_of_none {s : State} (x : Reg) (h : s.lowestKey = none) :
    execLdVxK x s = .next (s.setPc (s.pc - 2)) := by
  simp [execLdVxK, h]

theorem execLdVxK_cases (x : Reg) (s : State) :
    (∃ k, s.lowestKey = some k ∧ execLdVxK x s = .next (s.setReg x (BitVec.ofNat 8 k.val))) ∨
    (s.lowestKey = none ∧ execLdVxK x s = .next (s.setPc (s.pc - 2))) := by
  cases h : s.lowestKey with
  | some k => exact .inl ⟨k, rfl, execLdVxK_of_some x h⟩
  | none => exact .inr ⟨rfl, execLdVxK_of_none x h⟩

/-! ## Components that are the same data -/

/-- The component is the same data in both states: `Same`, with equal fields in place of equal reads. -/
def SameData : Part → State → State → Prop
  | .regs, s, t => t.v = s.v
  | .pc, s, t => t.pc = s.pc
  | .i, s, t => t.i = s.i
  | .stack, s, t => t.sp = s.sp ∧ t.stack = s.stack
  | .dt, s, t => t.dt = s.dt
  | .st, s, t => t.st = s.st
  | .key, s, t => t.key = s.key
  | .fb, s, t => t.fb = s.fb
  | .mem, s, t => t.mem = s.mem
  | .fault, s, t => t.fault = s.fault

/-- Every component outside `c` is the same data in both states. -/
def Keeps (c : List Part) (s t : State) : Prop := ∀ p, p ∉ c → SameData p s t

theorem Keeps.frame {c : List Part} {s t : State} (h : Keeps c s t) : Frame c s t :=
  frame_of_fields c s t (h .regs) (h .pc) (h .i) (h .stack) (h .dt) (h .st) (h .key) (h .fb) (h .mem) (h .fault)

theorem Keeps.mono {c d : List Part} {s t : State} (h : Keeps c s t) (hcd : c ⊆ d) : Keeps d s t :=
  fun p hp => h p fun hc => hp (hcd hc)

/-! One rule for each write that an execute phase makes; the input beside the machine is no component (R35). -/

theorem keeps_refl (s : State) : Keeps [] s s := by
  intro p _; cases p <;> simp [SameData]

theorem keeps_withRegs (s : State) (v : Vector Byte 16) (r : StepInput) :
    Keeps [.regs] s { s with v := v, rnd := r } := by
  intro p hp; cases p <;> simp_all [SameData]

theorem keeps_setPc (s : State) (a : Word) : Keeps [.pc] s (s.setPc a) := by
  intro p hp; cases p <;> simp_all [SameData]

theorem keeps_skipIf (s : State) (c : Bool) : Keeps [.pc] s (s.skipIf c) := by
  rw [State.skipIf_eq_setPc]; exact keeps_setPc s _

theorem keeps_setI (s : State) (a : Word) : Keeps [.i] s (s.setI a) := by
  intro p hp; cases p <;> simp_all [SameData]

theorem keeps_withStackAndPc (s : State) (st : Vector Word 16) (sp : Fin 17) (a : Word) :
    Keeps [.pc, .stack] s { s with stack := st, sp := sp, pc := a } := by
  intro p hp; cases p <;> simp_all [SameData]

theorem keeps_withDt (s : State) (b : Byte) : Keeps [.dt] s { s with dt := b } := by
  intro p hp; cases p <;> simp_all [SameData]

theorem keeps_withSt (s : State) (b : Byte) : Keeps [.st] s { s with st := b } := by
  intro p hp; cases p <;> simp_all [SameData]

theorem keeps_withFb (s : State) (fb : Framebuffer) : Keeps [.fb] s { s with fb := fb } := by
  intro p hp; cases p <;> simp_all [SameData]

theorem keeps_withFbAndReg (s : State) (fb : Framebuffer) (x : Reg) (b : Byte) :
    Keeps [.regs, .fb] s (State.setReg { s with fb := fb } x b) := by
  intro p hp; cases p <;> simp_all [SameData]

theorem keeps_withMem (s : State) (m : Memory) : Keeps [.mem] s { s with mem := m } := by
  intro p hp; cases p <;> simp_all [SameData]

theorem keeps_raise (s : State) (e : FatalError) : Keeps [.fault] s (s.raise e) := by
  intro p hp; cases p <;> simp_all [SameData]

/-! ## The execute phase -/

/-- R37 on data: an execute phase leaves every component outside the access matrix the same data. -/
theorem exec_keeps {i : Instr} {s t : State} (h : exec i s = .next t) : Keeps (writes i) s t := by
  cases i with
  | undefinedNop _ =>
    obtain rfl := Host.Outcome.next.inj h
    exact keeps_refl s
  | ldImm _ _ | ldReg _ _ | orReg _ _ | andReg _ _ | xorReg _ _ | addImm _ _ | addReg _ _ | sub _ _ | subn _ _
  | shr _ _ | shl _ _ | rnd _ _ | ldVxDt _ =>
    obtain rfl := Host.Outcome.next.inj h
    exact keeps_withRegs s _ _
  | jp _ | jpV0 _ =>
    obtain rfl := Host.Outcome.next.inj h
    exact keeps_setPc s _
  | seImm _ _ | sneImm _ _ | seReg _ _ | sneReg _ _ =>
    obtain rfl := Host.Outcome.next.inj h
    exact keeps_skipIf s _
  | ldI _ | addI _ | ldF _ =>
    obtain rfl := Host.Outcome.next.inj h
    exact keeps_setI s _
  | cls =>
    obtain rfl := Host.Outcome.next.inj h
    exact keeps_withFb s _
  | ldDtVx _ =>
    obtain rfl := Host.Outcome.next.inj h
    exact keeps_withDt s _
  | ldStVx _ =>
    obtain rfl := Host.Outcome.next.inj h
    exact keeps_withSt s _
  | call nnn =>
    rcases execCall_cases nnn s with ⟨_, he⟩ | ⟨_, he⟩ <;> obtain rfl := eq_of_next he h
    · exact (keeps_withStackAndPc s _ _ _).mono (by simp [writes])
    · exact (keeps_raise s _).mono (by simp [writes])
  | ret =>
    rcases execRet_cases s with ⟨_, he⟩ | ⟨_, he⟩ <;> obtain rfl := eq_of_next he h
    · exact (keeps_withStackAndPc s _ _ _).mono (by simp [writes])
    · exact (keeps_raise s _).mono (by simp [writes])
  | drw x y n =>
    rcases execDrw_cases x y n s with ⟨_, he⟩ | ⟨_, _, he⟩ <;> obtain rfl := eq_of_next he h
    · exact (keeps_withFbAndReg s _ _ _).mono (by simp [writes])
    · exact (keeps_raise s _).mono (by simp [writes])
  | skp x =>
    rcases execSkp_cases x s with ⟨_, he⟩ | ⟨_, he⟩ <;> obtain rfl := eq_of_next he h
    · exact (keeps_setPc s _).mono (by simp [writes])
    · exact (keeps_raise s _).mono (by simp [writes])
  | sknp x =>
    rcases execSknp_cases x s with ⟨_, he⟩ | ⟨_, he⟩ <;> obtain rfl := eq_of_next he h
    · exact (keeps_setPc s _).mono (by simp [writes])
    · exact (keeps_raise s _).mono (by simp [writes])
  | ldVxK x =>
    rcases execLdVxK_cases x s with ⟨_, _, he⟩ | ⟨_, he⟩ <;> obtain rfl := eq_of_next he h
    · exact Keeps.mono (keeps_withRegs s _ _) (by simp [writes])
    · exact (keeps_setPc s _).mono (by simp [writes])
  | ldB x =>
    rcases execLdB_cases x s with ⟨_, he⟩ | ⟨_, he⟩ <;> obtain rfl := eq_of_next he h
    · exact (keeps_withMem s _).mono (by simp [writes])
    · exact (keeps_raise s _).mono (by simp [writes])
  | ldMemVx x =>
    rcases execLdMemVx_cases x s with ⟨_, he⟩ | ⟨_, he⟩ <;> obtain rfl := eq_of_next he h
    · exact (keeps_withMem s _).mono (by simp [writes])
    · exact (keeps_raise s _).mono (by simp [writes])
  | ldVxMem x =>
    rcases execLdVxMem_cases x s with ⟨_, he⟩ | ⟨_, he⟩ <;> obtain rfl := eq_of_next he h
    · exact Keeps.mono (keeps_withRegs s _ _) (by simp [writes])
    · exact (keeps_raise s _).mono (by simp [writes])

/-- Settles O46: components that are the same data read the same. -/
theorem execWritesOnlyTheAccessMatrix : Obligations.ExecWritesOnlyTheAccessMatrix :=
  fun _ _ _ h => (exec_keeps h).frame

end Sys2Proof.Proofs
end

section
/-! What every step keeps: the canonical form of memory, and the ranges of `PC` and the stack slots (R24, R133). -/

namespace Sys2Proof.Proofs

open Sys2Proof.Machine

/-- Where a step has a next state: the execute phase of the fetched word, or the error of the fetch (R120, R121). -/
theorem step_next_cases {s t : State} (h : step s = .next t) :
    (s.pc.toNat ≤ 0xFFE ∧ exec (decodeWord s.nextWord) (s.setPc (s.pc + 2)) = .next t) ∨
    t = s.raise .memoryOutOfBounds := by
  rcases step_cases s with ⟨e, _, he⟩ | ⟨_, hpc, he⟩ | ⟨_, _, he⟩
  · cases he.symm.trans h
  · exact .inl ⟨hpc, he.symm.trans h⟩
  · exact .inr (eq_of_next h he)

/-! ## Memory -/

/-- An execute phase leaves memory as it is, or stores one block inside its 4096 addresses (R68, R200, R201). -/
theorem exec_mem_cases {i : Instr} {s t : State} (h : exec i s = .next t) :
    t.mem = s.mem ∨ ∃ a bs, a + bs.length ≤ 4096 ∧ t.mem = Memory.putBytes s.mem a bs := by
  cases i with
  | ldB x =>
    rcases execLdB_cases x s with ⟨hb, he⟩ | ⟨_, he⟩ <;> obtain rfl := eq_of_next he h
    · exact .inr ⟨_, _, by rw [length_decimalDigits]; omega, rfl⟩
    · exact .inl rfl
  | ldMemVx x =>
    rcases execLdMemVx_cases x s with ⟨hb, he⟩ | ⟨_, he⟩ <;> obtain rfl := eq_of_next he h
    · exact .inr ⟨_, _, by rw [State.length_block]; omega, rfl⟩
    · exact .inl rfl
  | _ => exact .inl (exec_keeps h .mem (by simp [writes]))

theorem exec_memoryCanonical {i : Instr} {s t : State} (h : exec i s = .next t) (hs : s.memoryCanonical) :
    t.memoryCanonical := by
  rcases exec_mem_cases h with hm | ⟨a, bs, hb, hm⟩ <;> rw [State.memoryCanonical, hm]
  · exact hs
  · exact Memory.wf_putBytes bs s.mem a hs hb

/-- Settles O52: the fetch writes no memory, and every store of the execute phase is inside memory. -/
theorem stepKeepsMemoryCanonical : Obligations.StepKeepsMemoryCanonical := by
  intro s t hs h
  rcases step_next_cases h with ⟨_, hx⟩ | rfl
  · exact exec_memoryCanonical hx hs
  · exact hs

/-! ## Counters

The execute phase runs with `PC` advanced, between 2 and 0x1000: a rewind by 2 does not wrap, and a call pushes at most
0x1000. -/

theorem zext16_toNat_lt (a : Addr) : (zext16 a).toNat < 4096 := by
  rw [BitVec.toNat_setWidth_of_le (by decide)]; exact a.isLt

theorem skipIf_pc_le (s : State) (c : Bool) : (s.skipIf c).pc.toNat ≤ s.pc.toNat + 2 := by
  rw [State.skipIf_eq_setPc, State.setPc_pc]
  split <;> bv_omega

theorem exec_stack_le {i : Instr} {s t : State} (h : exec i s = .next t) (hpc : s.pc.toNat ≤ 0x1000)
    (hs : ∀ k : Fin 16, s.stack[k].toNat ≤ 0x1000) (k : Fin 16) : t.stack[k].toNat ≤ 0x1000 := by
  cases i with
  | call nnn =>
    rcases execCall_cases nnn s with ⟨_, he⟩ | ⟨_, he⟩ <;> obtain rfl := eq_of_next he h
    · simp only [Fin.getElem_fin, Vector.getElem_set]
      split
      · exact hpc
      · exact hs k
    · exact hs k
  | ret =>
    rcases execRet_cases s with ⟨_, he⟩ | ⟨_, he⟩ <;> obtain rfl := eq_of_next he h
    · exact hs k
    · exact hs k
  | _ =>
    rw [(exec_keeps h .stack (by simp [writes])).2]
    exact hs k

theorem exec_pc_le {i : Instr} {s t : State} (h : exec i s = .next t) (h2 : 2 ≤ s.pc.toNat)
    (hpc : s.pc.toNat ≤ 0x1000) (hs : ∀ k : Fin 16, s.stack[k].toNat ≤ 0x1000) : t.pc.toNat ≤ 0x10FE := by
  cases i with
  | jp nnn =>
    obtain rfl := Host.Outcome.next.inj h
    exact (zext16_toNat_lt nnn).le.trans (by decide)
  | jpV0 nnn =>
    obtain rfl := Host.Outcome.next.inj h
    have hn := zext16_toNat_lt nnn
    have h0 := (s.reg 0).isLt
    rw [State.setPc_pc]
    bv_omega
  | seImm _ _ | sneImm _ _ | seReg _ _ | sneReg _ _ =>
    obtain rfl := Host.Outcome.next.inj h
    exact (skipIf_pc_le s _).trans (by omega)
  | call nnn =>
    rcases execCall_cases nnn s with ⟨_, he⟩ | ⟨_, he⟩ <;> obtain rfl := eq_of_next he h
    · exact (zext16_toNat_lt nnn).le.trans (by decide)
    · exact hpc.trans (by decide)
  | ret =>
    rcases execRet_cases s with ⟨hsp, he⟩ | ⟨_, he⟩ <;> obtain rfl := eq_of_next he h
    · exact (hs ⟨s.sp.val - 1, by omega⟩).trans (by decide)
    · exact hpc.trans (by decide)
  | skp x =>
    rcases execSkp_cases x s with ⟨_, he⟩ | ⟨_, he⟩ <;> obtain rfl := eq_of_next he h
    · rw [State.setPc_pc]
      split <;> bv_omega
    · exact hpc.trans (by decide)
  | sknp x =>
    rcases execSknp_cases x s with ⟨_, he⟩ | ⟨_, he⟩ <;> obtain rfl := eq_of_next he h
    · rw [State.setPc_pc]
      split <;> bv_omega
    · exact hpc.trans (by decide)
  | ldVxK x =>
    rcases execLdVxK_cases x s with ⟨_, _, he⟩ | ⟨_, he⟩ <;> obtain rfl := eq_of_next he h
    · exact hpc.trans (by decide)
    · rw [State.setPc_pc]
      bv_omega
  | _ =>
    rw [exec_keeps h .pc (by simp [writes])]
    omega

/-- Settles O53: a fetch that succeeds leaves `PC` between 2 and 0x1000, and one that fails changes no counter. -/
theorem stepKeepsCountersInRange : Obligations.StepKeepsCountersInRange := by
  intro s t hs h
  rcases step_next_cases h with ⟨hpc, hx⟩ | rfl
  · have hadv : (s.setPc (s.pc + 2)).pc.toNat = s.pc.toNat + 2 := by
      rw [State.setPc_pc]; bv_omega
    have hle : (s.setPc (s.pc + 2)).pc.toNat ≤ 0x1000 := by omega
    exact ⟨exec_pc_le hx (by omega) hle hs.2, exec_stack_le hx hle hs.2⟩
  · exact hs

end Sys2Proof.Proofs
end

section
/-! Which registers an execute phase writes, and the values of `VF` as a flag (R22, R37). -/

namespace Sys2Proof.Proofs

open Sys2Proof.Machine

theorem reg_eq_of_v_eq {s t : State} (h : t.v = s.v) (j : Reg) : t.reg j = s.reg j := by
  rw [State.reg, h, State.reg]

theorem bit_eq_zero_or_one (c : Bool) : bit c = 0 ∨ bit c = 1 := by
  cases c <;> simp [bit]

theorem exec_keeps_reg {i : Instr} {s t : State} {j : Reg} (h : exec i s = .next t) (hd : isDestination i j = false)
    (hf : writesFlag i = true → j ≠ VF) : t.reg j = s.reg j := by
  cases i with
  | ldImm x _ | ldReg x _ | orReg x _ | andReg x _ | xorReg x _ | rnd x _ | ldVxDt x =>
    obtain rfl := Host.Outcome.next.inj h
    exact (State.reg_setReg s x j _).trans (if_neg (of_decide_eq_false hd))
  | addImm x _ | addReg x _ | sub x _ | subn x _ | shr x _ | shl x _ =>
    obtain rfl := Host.Outcome.next.inj h
    rw [State.reg_setResultThenFlag, if_neg (hf rfl), if_neg (of_decide_eq_false hd)]
  | drw x y n =>
    rcases execDrw_cases x y n s with ⟨_, he⟩ | ⟨_, _, he⟩ <;> obtain rfl := eq_of_next he h
    · exact (State.reg_setReg _ VF j _).trans (if_neg (hf rfl))
    · rfl
  | ldVxK x =>
    rcases execLdVxK_cases x s with ⟨_, _, he⟩ | ⟨_, he⟩ <;> obtain rfl := eq_of_next he h
    · exact (State.reg_setReg s x j _).trans (if_neg (of_decide_eq_false hd))
    · rfl
  | ldVxMem x =>
    rcases execLdVxMem_cases x s with ⟨_, he⟩ | ⟨_, he⟩ <;> obtain rfl := eq_of_next he h
    · have hj : x < j := not_le.1 (of_decide_eq_false hd)
      rw [State.reg_setBlock, List.getD_eq_default _ _ (by rw [Memory.length_bytesAt]; exact hj)]
    · rfl
  | _ => exact reg_eq_of_v_eq (exec_keeps h .regs (by simp [writes])) j

theorem exec_flag_eq_zero_or_one {i : Instr} {s t : State} (h : exec i s = .next t) (hf : writesFlag i = true)
    (hr : raises i s = none) : t.reg VF = 0 ∨ t.reg VF = 1 := by
  cases i with
  | addImm x _ | addReg x _ | sub x _ | subn x _ | shr x _ | shl x _ =>
    obtain rfl := Host.Outcome.next.inj h
    rw [State.reg_setResultThenFlag, if_pos rfl]
    exact bit_eq_zero_or_one _
  | drw x y n =>
    rcases execDrw_cases x y n s with ⟨_, he⟩ | ⟨hn, hi, he⟩ <;> obtain rfl := eq_of_next he h
    · rw [State.reg_setReg, if_pos rfl]
      exact bit_eq_zero_or_one _
    · rw [raises, if_pos (by omega)] at hr
      cases hr
  | _ => cases hf

/-- Settles O47: the registers kept, and the flag, by instruction. -/
theorem onlySevenInstructionsWriteTheFlag : Obligations.OnlySevenInstructionsWriteTheFlag :=
  fun _ _ _ h => ⟨fun _ => exec_keeps_reg h, exec_flag_eq_zero_or_one h⟩

end Sys2Proof.Proofs
end

section
/-! What no instruction reads: the execute phase commutes with any change of the sound timer (R29), and, but for the
two key tests and the key wait, with any change of the keys (R30). -/

namespace Sys2Proof.Proofs

open Sys2Proof.Machine

/-- The instructions whose row of R37 reads the keys: SKP, SKNP and the key wait. -/
def readsKeys : Instr → Bool
  | .skp _ | .sknp _ | .ldVxK _ => true
  | _ => false

/-- The state with its sound timer changed by `f` and its keys by `g`. -/
def relabel (f : Byte → Byte) (g : Vector Bool 16 → Vector Bool 16) (s : State) : State :=
  { s with st := f s.st, key := g s.key }

section
variable (f : Byte → Byte) (g : Vector Bool 16 → Vector Bool 16) (s : State)

@[simp] theorem relabel_pc : (relabel f g s).pc = s.pc := rfl
@[simp] theorem relabel_sp : (relabel f g s).sp = s.sp := rfl
@[simp] theorem relabel_reg (x : Reg) : (relabel f g s).reg x = s.reg x := rfl
@[simp] theorem relabel_base : (relabel f g s).base = s.base := rfl
@[simp] theorem relabel_memRead (a n : Nat) : (relabel f g s).memRead a n = s.memRead a n := rfl
@[simp] theorem relabel_id_keyAt (k : Byte) : (relabel f id s).keyAt k = s.keyAt k := rfl

theorem skipIf_relabel (c : Bool) : (relabel f g s).skipIf c = relabel f g (s.skipIf c) := by
  cases c <;> rfl

theorem memWrite_relabel (a : Nat) (bs : List Byte) :
    (relabel f g s).memWrite a bs = (s.memWrite a bs).map (relabel f g) := by
  unfold State.memWrite; split <;> rfl

theorem push_relabel (a : Word) : (relabel f g s).push a = (s.push a).map (relabel f g) := by
  by_cases h : s.sp.val < 16 <;> simp [State.push, h, relabel, Except.map]

theorem pop_relabel : (relabel f g s).pop = s.pop.map fun p => (p.1, relabel f g p.2) := by
  by_cases h : s.sp.val = 0 <;> simp [State.pop, h, relabel, Except.map]

variable {f g s}

theorem finish_relabel {r r' : Except FatalError State} {t : State} (h : s.finish r = .next t)
    (hr : r' = r.map (relabel f g)) : (relabel f g s).finish r' = .next (relabel f g t) := by
  subst hr
  cases r <;> obtain rfl := Host.Outcome.next.inj h <;> rfl

/-- Two runs of an execute phase that differ in the sound timer and the keys alone stay so: of the instructions only
FX18 writes the timer, and only the three of `readsKeys` may depend on the keys. -/
theorem exec_relabel {i : Instr} {t : State} (hst : ∀ x, i ≠ .ldStVx x) (hkey : readsKeys i = true → g = id)
    (h : exec i s = .next t) : exec i (relabel f g s) = .next (relabel f g t) := by
  cases i with
  | ldStVx x => exact absurd rfl (hst x)
  | seImm _ _ | sneImm _ _ | seReg _ _ | sneReg _ _ =>
    obtain rfl := Host.Outcome.next.inj h
    exact congrArg Host.Outcome.next (skipIf_relabel f g s _)
  | call nnn =>
    refine finish_relabel h ?_
    rw [relabel_pc, push_relabel]
    cases s.push s.pc <;> rfl
  | ret =>
    refine finish_relabel h ?_
    rw [pop_relabel]
    cases s.pop <;> rfl
  | drw x y n =>
    refine finish_relabel h ?_
    rw [relabel_base, relabel_memRead]
    cases s.memRead s.base n.val <;> rfl
  | skp x | sknp x =>
    obtain rfl := hkey rfl
    refine finish_relabel h ?_
    rw [relabel_reg, relabel_id_keyAt]
    cases s.keyAt (s.reg x) with
    | ok c => exact congrArg Except.ok (skipIf_relabel f id s _)
    | error e => rfl
  | ldVxK x =>
    obtain rfl := hkey rfl
    rcases execLdVxK_cases x s with ⟨k, hk, he⟩ | ⟨hk, he⟩ <;> obtain rfl := eq_of_next he h
    · exact execLdVxK_of_some x hk
    · exact execLdVxK_of_none x hk
  | ldB x => exact finish_relabel h (memWrite_relabel f g s _ _)
  | ldMemVx x => exact finish_relabel h (memWrite_relabel f g s _ _)
  | ldVxMem x =>
    refine finish_relabel h ?_
    rw [relabel_base, relabel_memRead]
    cases s.memRead s.base (x.val + 1) <;> rfl
  | _ =>
    obtain rfl := Host.Outcome.next.inj h
    rfl

end

/-- Settles O50: `exec_relabel` with the sound timer replaced and the keys as they are; FX18 overwrites the timer. -/
theorem noInstructionReadsTheSoundTimer : Obligations.NoInstructionReadsTheSoundTimer := by
  intro i s t a h
  split
  next =>
    obtain rfl := Host.Outcome.next.inj h
    rfl
  next hi => exact exec_relabel (f := fun _ => a) (g := id) hi (fun _ => rfl) h

/-- Settles O51: `exec_relabel` with the keys replaced and the sound timer as it is; FX18 reads no key. -/
theorem onlyThreeInstructionsReadTheKeys : Obligations.OnlyThreeInstructionsReadTheKeys := by
  intro i s t k hskp hsknp hwait h
  cases i with
  | skp x => exact absurd rfl (hskp x)
  | sknp x => exact absurd rfl (hsknp x)
  | ldVxK x => exact absurd rfl (hwait x)
  | ldStVx x =>
    obtain rfl := Host.Outcome.next.inj h
    rfl
  | _ => exact exec_relabel (f := id) (g := fun _ => k) (by simp) (by simp [readsKeys]) h

end Sys2Proof.Proofs
end

section
/-! The state of `initializeOp` and of `resetOp` (R36, R270, R271). -/

namespace Sys2Proof.Proofs

open Sys2Proof.Machine

/-- The font at 0 to 79, zero at every other address (R36). -/
theorem byteAt_initializeOp (f : Font) (a : Nat) :
    (initializeOp f).byteAt a = if h : a < 80 then f[a] else 0 := by
  refine (Memory.byteAt_putBytes f.toList [] 0 a).trans ?_
  by_cases h : a < 80
  · simp [h]
  · rw [if_neg (by simpa using h), dif_neg h]
    exact resetByte_of_ge a (by omega)

theorem initializeOp_memoryCanonical (f : Font) : (initializeOp f).memoryCanonical :=
  Memory.wf_putBytes f.toList [] 0 Memory.wf_nil (by simp)

/-- The machine of `initializeOp` has the reset values, whatever input stands beside it (R35, R36). -/
theorem atReset_initializeOp (f : Font) (r : StepInput) : State.atReset f { initializeOp f with rnd := r } :=
  ⟨rfl, fun _ => Vector.getElem_replicate _, byteAt_initializeOp f, fun _ => Vector.getElem_replicate _,
    Framebuffer.cell_clear, fun _ => Vector.getElem_replicate _, rfl, rfl, rfl, rfl, rfl⟩

/-- Settles O1: `resetOp` makes the machine of `initializeOp` beside the input that was there. -/
theorem initializeAndResetGiveTheResetState : Obligations.InitializeAndResetGiveTheResetState :=
  fun f s => ⟨atReset_initializeOp f _, atReset_initializeOp f s.rnd⟩

/-- The default font is what unlisted memory reads as, so storing it lists nothing. -/
theorem initializeOp_defaultFont_mem : (initializeOp defaultFont).mem = [] := by
  refine Memory.eq_of_byteAt_eq _ _ (initializeOp_memoryCanonical _) Memory.wf_nil fun a => ?_
  refine (byteAt_initializeOp defaultFont a).trans ?_
  split
  · simp [defaultFont, Memory.byteAt]
  · exact (resetByte_of_ge a (by omega)).symm

/-- Settles O2: the two states differ at most in the list of memory, which is empty in both. -/
theorem resetIsInitializeWithDefaultFont : Obligations.ResetIsInitializeWithDefaultFont :=
  congrArg (fun m => ({ State.reset with mem := m } : State)) initializeOp_defaultFont_mem

/-- Settles O3: nothing is listed in memory, `PC` is 0x200 and every slot is 0. -/
theorem resetSatisfiesInvariants : Obligations.ResetSatisfiesInvariants :=
  ⟨Memory.wf_nil, by decide, fun k => by rw [State.reset, MachineState.reset]; simp⟩

end Sys2Proof.Proofs
end

section
/-! The word that a step fetches (R61), what it is after a block store over it (R73), and the accesses of an
instruction that reach an address of 4096 or more (R68). -/

namespace Sys2Proof.Proofs

open Sys2Proof.Machine

/-! ## The fetched word -/

/-- Where the step can fetch, it is the execute phase of the word at `PC`, with `PC` advanced (R120 to R122). -/
theorem step_of_canFetch {s : State} (h : s.canFetch) :
    step s = exec (decodeWord s.nextWord) (s.setPc (s.pc + 2)) := by
  obtain ⟨hf, hpc⟩ := h
  rcases step_cases s with ⟨e, he, _⟩ | ⟨_, _, hs⟩ | ⟨_, hge, _⟩
  · cases hf.symm.trans he
  · exact hs
  · omega

/-- The opcode nibble of a word is the high nibble of its first byte (R61). -/
theorem nibble_12_wordOfBytes (b0 b1 : Byte) : (nibble (wordOfBytes b0 b1) 12).val = b0.toNat / 16 := by
  rw [nibble_val, wordOfBytes_toNat]
  omega

/-- Settles O10: the word is `nextWord`, two bytes in big-endian order. -/
theorem stepRunsTheBigEndianWordAtPc : Obligations.StepRunsTheBigEndianWordAtPc := fun s hf hpc =>
  ⟨s.nextWord, wordOfBytes_toNat _ _, nibble_12_wordOfBytes _ _, step_of_canFetch ⟨hf, hpc⟩⟩

/-! ## A block store over the next word -/

/-- Read after a block store: byte `j` of the block is register `j` (R201). -/
theorem byteAt_putBytes_block (s : State) (a : Nat) {x j : Reg} (h : j ≤ x) :
    Memory.byteAt (Memory.putBytes s.mem a (s.block x)) (a + j.val) = s.reg j := by
  have hj : j.val < (s.block x).length := (Nat.lt_succ_of_le h).trans_eq (State.length_block s x).symm
  rw [Memory.byteAt_putBytes, if_pos ⟨Nat.le_add_right _ _, Nat.add_lt_add_left hj a⟩,
    Nat.add_sub_cancel_left, State.getD_block s x j h]

/-- With its block in bounds FX55 writes memory and nothing else (R201). -/
theorem exec_ldMemVx_of_inBounds {x : Reg} {s : State} (h : s.i.toNat + x.val ≤ 0xFFF) :
    exec (.ldMemVx x) s = .next { s with mem := Memory.putBytes s.mem s.i.toNat (s.block x) } :=
  ((execLdMemVx_cases x s).resolve_right fun ⟨hgt, _⟩ => by omega).2

/-- Settles O45: the store keeps `PC` and the latch, so the next step fetches, and it fetches bytes 0 and 1 of the
block. -/
theorem storedCodeIsFetchedNext : Obligations.StoredCodeIsFetchedNext := by
  intro x s t hf hx hipc hb h
  obtain rfl := eq_of_next (exec_ldMemVx_of_inBounds hb) h
  rw [hipc] at hb ⊢
  have h0 := byteAt_putBytes_block s s.pc.toNat (Fin.zero_le x)
  have h1 := byteAt_putBytes_block s s.pc.toNat (j := 1) hx
  rw [← h0, ← h1]
  exact step_of_canFetch ⟨hf, show s.pc.toNat ≤ 0xFFE by omega⟩

/-! ## Accesses out of bounds -/

/-- An outcome that raises latches the error and writes nothing else (R10, R235). -/
theorem latches_of_raise {o : Result} {s : State} {e : FatalError} (h : o = .next (s.raise e)) :
    ∃ t, o = .next t ∧ t.fault = some e ∧ Frame [.fault] s t :=
  ⟨s.raise e, h, rfl, (keeps_raise s e).frame⟩

/-- Settles O44: beyond the bound each of the four instructions takes the raising case of its meaning. -/
theorem outOfBoundsAccessesWriteNothing : Obligations.OutOfBoundsAccessesWriteNothing := by
  intro x y n s
  refine ⟨fun ⟨hn, hi⟩ => ?_, fun hi => ?_, fun hi => ⟨?_, ?_⟩⟩
  · exact latches_of_raise ((execDrw_cases x y n s).resolve_left fun ⟨hb, _⟩ => by omega).2.2
  · exact latches_of_raise ((execLdB_cases x s).resolve_left fun ⟨hb, _⟩ => by omega).2
  · exact latches_of_raise ((execLdMemVx_cases x s).resolve_left fun ⟨hb, _⟩ => by omega).2
  · exact latches_of_raise ((execLdVxMem_cases x s).resolve_left fun ⟨hb, _⟩ => by omega).2

end Sys2Proof.Proofs
end

section
/-! The encoder's shapes (R92) read by the decoder's fields (R91), and a word put together again from its fields. -/

namespace Sys2Proof.Proofs

/-! ## The fields of an encoded word -/

@[simp] theorem nibble_12_encodeA (op : BitVec 4) (nnn : Addr) : (nibble (encodeA op nnn) 12).val = op.toNat := by
  rw [nibble_val, encodeA_toNat]
  omega

@[simp] theorem fieldNNN_encodeA (op : BitVec 4) (nnn : Addr) : fieldNNN (encodeA op nnn) = nnn := by
  apply BitVec.eq_of_toNat_eq
  rw [fieldNNN_toNat, encodeA_toNat]
  omega

@[simp] theorem nibble_12_encodeI (op : BitVec 4) (x : Reg) (kk : Byte) :
    (nibble (encodeI op x kk) 12).val = op.toNat := by
  rw [nibble_val, encodeI_toNat]
  omega

@[simp] theorem fieldX_encodeI (op : BitVec 4) (x : Reg) (kk : Byte) : fieldX (encodeI op x kk) = x := by
  apply Fin.ext
  rw [fieldX_val, encodeI_toNat]
  omega

@[simp] theorem fieldKK_encodeI (op : BitVec 4) (x : Reg) (kk : Byte) : fieldKK (encodeI op x kk) = kk := by
  apply BitVec.eq_of_toNat_eq
  rw [fieldKK_toNat, encodeI_toNat]
  omega

@[simp] theorem nibble_12_encodeR (op : BitVec 4) (x y n : Fin 16) :
    (nibble (encodeR op x y n) 12).val = op.toNat := by
  rw [nibble_val, encodeR_toNat]
  omega

@[simp] theorem fieldX_encodeR (op : BitVec 4) (x y n : Fin 16) : fieldX (encodeR op x y n) = x := by
  apply Fin.ext
  rw [fieldX_val, encodeR_toNat]
  omega

@[simp] theorem fieldY_encodeR (op : BitVec 4) (x y n : Fin 16) : fieldY (encodeR op x y n) = y := by
  apply Fin.ext
  rw [fieldY_val, encodeR_toNat]
  omega

@[simp] theorem fieldN_encodeR (op : BitVec 4) (x y n : Fin 16) : fieldN (encodeR op x y n) = n := by
  apply Fin.ext
  rw [fieldN_val, encodeR_toNat]
  omega

/-! ## A word put together from its fields -/

theorem encodeA_fields {w : Word} {op : BitVec 4} (hop : (nibble w 12).val = op.toNat) :
    encodeA op (fieldNNN w) = w := by
  rw [nibble_val] at hop
  apply BitVec.eq_of_toNat_eq
  rw [encodeA_toNat, fieldNNN_toNat]
  omega

theorem encodeI_fields {w : Word} {op : BitVec 4} {kk : Byte} (hop : (nibble w 12).val = op.toNat)
    (hkk : fieldKK w = kk) : encodeI op (fieldX w) kk = w := by
  rw [nibble_val] at hop
  apply BitVec.eq_of_toNat_eq
  rw [encodeI_toNat, fieldX_val, ← hkk, fieldKK_toNat]
  omega

theorem encodeR_fields {w : Word} {op : BitVec 4} {n : Fin 16} (hop : (nibble w 12).val = op.toNat)
    (hn : fieldN w = n) : encodeR op (fieldX w) (fieldY w) n = w := by
  rw [nibble_val] at hop
  apply BitVec.eq_of_toNat_eq
  rw [encodeR_toNat, fieldX_val, fieldY_val, ← hn, fieldN_val]
  omega

end Sys2Proof.Proofs
end

section
/-! Which words decode to the no-op (R100, R101), and the rows of the opcode map that select a word (R94). The cases
of a proof over the decoder are numbered in the order of its branches. -/

namespace Sys2Proof.Proofs

/-! ## The undefined words, by their fields -/

theorem decodeGroup8_eq_undefinedNop_iff (w : Word) : decodeGroup8 w = .undefinedNop w ↔
    (fieldN w).val ∈ [0x8, 0x9, 0xA, 0xB, 0xC, 0xD, 0xF] := by
  fun_cases decodeGroup8 w with
  | case10 =>
    simp only [imp_false, List.mem_cons, List.not_mem_nil, true_iff] at *
    omega
  | _ hn => simp [hn]

theorem decodeGroupF_eq_undefinedNop_iff (w : Word) : decodeGroupF w = .undefinedNop w ↔
    (fieldKK w).toNat ∉ [0x07, 0x0A, 0x15, 0x18, 0x1E, 0x29, 0x33, 0x55, 0x65] := by
  fun_cases decodeGroupF w with
  | case10 => simp_all [BitVec.toNat_eq]
  | _ => simp [*]

/-- The table of R101 over the fields that select (R98): opcode nibble, then whole word, low nibble or low byte. -/
theorem decodeWord_eq_undefinedNop_iff (w : Word) : decodeWord w = .undefinedNop w ↔
    ((nibble w 12).val = 0x0 ∧ w ≠ 0x00E0 ∧ w ≠ 0x00EE) ∨
    ((nibble w 12).val = 0x5 ∧ fieldN w ≠ 0) ∨
    ((nibble w 12).val = 0x8 ∧ (fieldN w).val ∈ [0x8, 0x9, 0xA, 0xB, 0xC, 0xD, 0xF]) ∨
    ((nibble w 12).val = 0x9 ∧ fieldN w ≠ 0) ∨
    ((nibble w 12).val = 0xE ∧ fieldKK w ≠ 0x9E ∧ fieldKK w ≠ 0xA1) ∨
    ((nibble w 12).val = 0xF ∧ (fieldKK w).toNat ∉ [0x07, 0x0A, 0x15, 0x18, 0x1E, 0x29, 0x33, 0x55, 0x65]) := by
  fun_cases decodeWord w with
  | case1 _ hw | case2 _ _ hw => subst hw; decide
  | case12 hop => simp [hop, decodeGroup8_eq_undefinedNop_iff]
  | case22 =>
    have hop : (nibble w 12).val = 0xF := by
      simp only [imp_false] at *
      omega
    simp [hop, decodeGroupF_eq_undefinedNop_iff]
  | _ => simp_all

/-- Settles O8: `decodeWord_eq_undefinedNop_iff` with every field as a quotient or a remainder. -/
theorem undefinedWordsAreTheListedGroups : Obligations.UndefinedWordsAreTheListedGroups := by
  intro w
  have hop : (nibble w 12).val = w.toNat / 4096 := by
    rw [nibble_val]
    omega
  rw [decodeWord_eq_undefinedNop_iff, hop]
  simp only [Fin.ext_iff, BitVec.toNat_eq, ne_eq, fieldN_val, fieldKK_toNat]
  rfl

/-! ## The rows of the opcode map -/

theorem nibble_of_selects {r : OpcodeRow} {w : Word} {lo : Nat} (h : r.selects w) (hm : nibble r.mask lo = 0xF) :
    nibble w lo = nibble r.pat lo := by
  have hm' : r.mask.extractLsb' lo 4 = BitVec.allOnes 4 := BitVec.eq_of_toNat_eq (congrArg Fin.val hm)
  simp only [nibble, ← h, BitVec.extractLsb'_and, hm', BitVec.and_allOnes]

theorem fieldKK_of_selects {r : OpcodeRow} {w : Word} (h : r.selects w) (hm : fieldKK r.mask = 0xFF) :
    fieldKK w = fieldKK r.pat := by
  have hm' : r.mask.extractLsb' 0 8 = BitVec.allOnes 8 := hm
  simp only [fieldKK, ← h, BitVec.extractLsb'_and, hm', BitVec.and_allOnes]

theorem eq_pat_of_selects {r : OpcodeRow} {w : Word} (h : r.selects w) (hm : r.mask = 0xFFFF) : w = r.pat := by
  rw [← h, hm]
  exact BitVec.and_allOnes.symm

/-- Every row fixes the opcode nibble, and of the other bits all that the decoder compares under that nibble (R98). -/
theorem mask_of_mem_opcodeMap : ∀ r ∈ opcodeMap, nibble r.mask 12 = 0xF ∧
    ((nibble r.pat 12).val = 0x0 → r.mask = 0xFFFF) ∧
    ((nibble r.pat 12).val ∈ [0x5, 0x8, 0x9] → nibble r.mask 0 = 0xF) ∧
    ((nibble r.pat 12).val ∈ [0xE, 0xF] → fieldKK r.mask = 0xFF) := by decide

theorem decodeWord_pat_ne_undefinedNop : ∀ r ∈ opcodeMap, decodeWord r.pat ≠ .undefinedNop r.pat := by decide

/-- A row that selects a word fixes every field that the decoder compares, so the word would be undefined only if the
row's `match` were. -/
theorem decodeWord_ne_undefinedNop_of_selects {r : OpcodeRow} {w : Word} (hr : r ∈ opcodeMap) (h : r.selects w) :
    decodeWord w ≠ .undefinedNop w := by
  obtain ⟨hm, hmask0, hmaskN, hmaskKK⟩ := mask_of_mem_opcodeMap r hr
  have hN (hop : (nibble r.pat 12).val ∈ [0x5, 0x8, 0x9]) : fieldN w = fieldN r.pat := nibble_of_selects h (hmaskN hop)
  have hKK (hop : (nibble r.pat 12).val ∈ [0xE, 0xF]) : fieldKK w = fieldKK r.pat := fieldKK_of_selects h (hmaskKK hop)
  intro hw
  rw [decodeWord_eq_undefinedNop_iff, nibble_of_selects h hm] at hw
  refine decodeWord_pat_ne_undefinedNop r hr ((decodeWord_eq_undefinedNop_iff r.pat).2 ?_)
  rcases hw with hw | hw | hw | hw | hw | hw <;> obtain ⟨hop, hu⟩ := hw
  · exact .inl ⟨hop, eq_pat_of_selects h (hmask0 hop) ▸ hu⟩
  · exact .inr (.inl ⟨hop, hN (by simp [hop]) ▸ hu⟩)
  · exact .inr (.inr (.inl ⟨hop, hN (by simp [hop]) ▸ hu⟩))
  · exact .inr (.inr (.inr (.inl ⟨hop, hN (by simp [hop]) ▸ hu⟩)))
  · exact .inr (.inr (.inr (.inr (.inl ⟨hop, hKK (by simp [hop]) ▸ hu⟩))))
  · exact .inr (.inr (.inr (.inr (.inr ⟨hop, hKK (by simp [hop]) ▸ hu⟩))))

/-- Two rows that select one word agree where both masks look, and no two rows of R96 do. -/
theorem eq_of_pat_and_mask_eq : ∀ r ∈ opcodeMap, ∀ q ∈ opcodeMap, r.pat &&& q.mask = q.pat &&& r.mask → r = q := by
  decide

theorem eq_of_selects {r q : OpcodeRow} {w : Word} (hr : r ∈ opcodeMap) (hq : q ∈ opcodeMap) (h : r.selects w)
    (h' : q.selects w) : r = q := by
  refine eq_of_pat_and_mask_eq r hr q hq ?_
  rw [← h, ← h', BitVec.and_assoc, BitVec.and_comm r.mask, BitVec.and_assoc]

end Sys2Proof.Proofs
end

section
/-! The round trip between words and instructions, and the opcode map as the decoder's specification (R94). -/

namespace Sys2Proof.Proofs

/-! ## From the word to the instruction and back -/

theorem encode_decodeGroup8 {w : Word} (hop : (nibble w 12).val = 0x8) : encode (decodeGroup8 w) = w := by
  fun_cases decodeGroup8 w with
  | case10 => rfl
  | _ hn => exact encodeR_fields hop (Fin.ext hn)

theorem encode_decodeGroupF {w : Word} (hop : (nibble w 12).val = 0xF) : encode (decodeGroupF w) = w := by
  fun_cases decodeGroupF w with
  | case10 => rfl
  | _ => exact encodeI_fields hop ‹_›

/-- In every branch the word is put together from the fields that the decoder took and the ones it compared. -/
theorem encode_decodeWord (w : Word) : encode (decodeWord w) = w := by
  fun_cases decodeWord w with
  | case1 | case2 => exact Eq.symm ‹_›
  | case3 | case9 | case14 | case21 => rfl
  | case4 hop | case5 hop | case15 hop | case16 hop => exact encodeA_fields hop
  | case6 hop | case7 hop | case10 hop | case11 hop | case17 hop => exact encodeI_fields hop rfl
  | case8 hop hn | case13 hop hn => exact encodeR_fields hop hn
  | case12 hop => exact encode_decodeGroup8 hop
  | case18 hop => exact encodeR_fields hop rfl
  | case19 hop hkk | case20 hop _ hkk => exact encodeI_fields hop hkk
  | case22 =>
    simp only [imp_false] at *
    exact encode_decodeGroupF (by omega)

theorem noRowSelects_iff (w : Word) : noRowSelects w = true ↔ ∀ r ∈ opcodeMap, ¬ r.selects w := by
  simp [noRowSelects]

theorem wellFormed_iff (i : Instr) : i.wellFormed = true ↔ ∀ w, i = .undefinedNop w → noRowSelects w = true := by
  cases i <;> simp [Instr.wellFormed]

theorem decodeWord_wellFormed (w : Word) : (decodeWord w).wellFormed = true := by
  refine (wellFormed_iff _).2 fun v hv => ?_
  have hvw : v = w := by simpa [hv, encode] using encode_decodeWord w
  subst hvw
  exact (noRowSelects_iff v).2 fun r hr h => decodeWord_ne_undefinedNop_of_selects hr h hv

/-- Settles O6: the word comes back by its fields, and a word that some row selects is no undefined word. -/
theorem encodeOfDecodeIsIdentity : Obligations.EncodeOfDecodeIsIdentity := fun w =>
  ⟨encode_decodeWord w, decodeWord_wellFormed w⟩

/-! ## The opcode map -/

open Laws.OpcodeRow in
/-- The row of every instruction, collected from the laws constructor by constructor. -/
theorem opcodeRow : ∀ i : Instr, Statement i
  | .cls => cls | .ret => ret | .jp nnn => jp nnn | .call nnn => call nnn | .seImm x kk => seImm x kk
  | .sneImm x kk => sneImm x kk | .seReg x y => seReg x y | .ldImm x kk => ldImm x kk | .addImm x kk => addImm x kk
  | .ldReg x y => ldReg x y | .orReg x y => orReg x y | .andReg x y => andReg x y | .xorReg x y => xorReg x y
  | .addReg x y => addReg x y | .sub x y => sub x y | .shr x y => shr x y | .subn x y => subn x y | .shl x y => shl x y
  | .sneReg x y => sneReg x y | .ldI nnn => ldI nnn | .jpV0 nnn => jpV0 nnn | .rnd x kk => rnd x kk
  | .drw x y n => drw x y n | .skp x => skp x | .sknp x => sknp x | .ldVxDt x => ldVxDt x | .ldVxK x => ldVxK x
  | .ldDtVx x => ldDtVx x | .ldStVx x => ldStVx x | .addI x => addI x | .ldF x => ldF x | .ldB x => ldB x
  | .ldMemVx x => ldMemVx x | .ldVxMem x => ldVxMem x | .undefinedNop w => undefinedNop w

theorem eq_undefinedNop_of_mnemonic {i : Instr} (h : i.mnemonic = "UNDEFINED_NOP") : i = .undefinedNop (encode i) := by
  cases i with
  | undefinedNop w => rfl
  | _ => simp [Instr.mnemonic] at h

/-- What decoding answers (R94, R100): the instruction of a row that selects the word, or the no-op where none does. -/
theorem decodeWord_cases (w : Word) :
    (∃ r ∈ opcodeMap, r.selects w ∧ (decodeWord w).mnemonic = r.mnemonic) ∨
    ((∀ r ∈ opcodeMap, ¬ r.selects w) ∧ decodeWord w = .undefinedNop w) := by
  have h := opcodeRow (decodeWord w) (decodeWord_wellFormed w)
  rw [encode_decodeWord] at h
  rcases h with ⟨r, hr, hmn, hsel⟩ | ⟨hmn, hno⟩
  · exact .inl ⟨r, hr, hsel, hmn.symm⟩
  · exact .inr ⟨(noRowSelects_iff w).1 hno, by simpa [encode_decodeWord] using eq_undefinedNop_of_mnemonic hmn⟩

theorem decodeWord_of_not_selects {w : Word} (h : ∀ r ∈ opcodeMap, ¬ r.selects w) :
    decodeWord w = .undefinedNop w := by
  rcases decodeWord_cases w with ⟨r, hr, hsel, _⟩ | ⟨_, hw⟩
  · exact absurd hsel (h r hr)
  · exact hw

theorem mnemonic_decodeWord_of_selects {r : OpcodeRow} {w : Word} (hr : r ∈ opcodeMap) (h : r.selects w) :
    (decodeWord w).mnemonic = r.mnemonic := by
  rcases decodeWord_cases w with ⟨q, hq, hsel, hmn⟩ | ⟨hno, _⟩
  · rw [hmn, eq_of_selects hq hr hsel h]
  · exact absurd h (hno r hr)

/-- Settles O7: `decodeWord_cases`, where the selecting row is the only one by `eq_of_selects`. -/
theorem decodeFollowsTheOpcodeMap : Obligations.DecodeFollowsTheOpcodeMap := fun _ =>
  ⟨fun _ hr h => mnemonic_decodeWord_of_selects hr h, fun _ hr _ hq h h' => eq_of_selects hr hq h h',
    decodeWord_of_not_selects⟩

/-! ## From the instruction to the word and back -/

/-- Each shape of R92 has its fields read back; the words of the no-op are those that no row selects. -/
theorem decodeWord_encode {i : Instr} (h : i.wellFormed = true) : decodeWord (encode i) = i := by
  cases i with
  | cls | ret => rfl
  | jp | call | ldI | jpV0 => simp [encode, decodeWord]
  | seImm | sneImm | ldImm | addImm | rnd | skp | sknp => simp [encode, decodeWord]
  | seReg | sneReg | drw => simp [encode, decodeWord]
  | ldReg | orReg | andReg | xorReg | addReg | sub | shr | subn | shl => simp [encode, decodeWord, decodeGroup8]
  | ldVxDt | ldVxK | ldDtVx | ldStVx | addI | ldF | ldB | ldMemVx | ldVxMem => simp [encode, decodeWord, decodeGroupF]
  | undefinedNop w => exact decodeWord_of_not_selects ((noRowSelects_iff w).1 h)

/-- Settles O5: the round trip from the instruction, for every operand of every shape. -/
theorem decodeOfEncodeIsIdentity : Obligations.DecodeOfEncodeIsIdentity := fun _ => decodeWord_encode

/-- Settles O9: each word is decoded by evaluation. -/
theorem sampleWordsDecode : Obligations.SampleWordsDecode := by
  unfold Obligations.SampleWordsDecode
  decide

end Sys2Proof.Proofs
end

section
/-! What one step answers (R120 to R125): the execute phase of the encoded instruction, the error of a fetch out of
bounds, the defined no-op, and the stop of a faulted machine. -/

namespace Sys2Proof.Proofs

open Sys2Proof.Machine

/-! ## What a step is in each case -/

/-- A step on bytes that encode a well-formed instruction is its execute phase, by the round trip of the decoder. -/
theorem step_of_nextWord_eq_encode {i : Instr} {s : State} (hi : i.wellFormed = true) (h : s.canFetch)
    (hw : s.nextWord = encode i) : step s = exec i (s.setPc (s.pc + 2)) := by
  rw [step_of_canFetch h, hw, decodeWord_encode hi]

/-- Beyond the last fetchable address the step is the raise of the fetch (R121). -/
theorem step_of_fetch_outOfBounds {s : State} (hf : s.fault = none) (hpc : 0xFFF ≤ s.pc.toNat) :
    step s = .next (s.raise .memoryOutOfBounds) := by
  rcases step_cases s with ⟨e, he, _⟩ | ⟨_, hle, _⟩ | ⟨_, _, hs⟩
  · cases hf.symm.trans he
  · omega
  · exact hs

theorem exec_undefinedNop (w : Word) (s : State) : exec (.undefinedNop w) s = .next s := rfl

/-- On a word that no row selects only the fetch has an effect (R124). -/
theorem step_of_not_selects {s : State} (h : s.canFetch) (hno : ∀ r ∈ opcodeMap, ¬ r.selects s.nextWord) :
    step s = .next (s.setPc (s.pc + 2)) := by
  rw [step_of_canFetch h, decodeWord_of_not_selects hno, exec_undefinedNop]

/-- A faulted machine has no step (R125, D20). -/
theorem step_of_fault {s : State} {e : FatalError} (hf : s.fault = some e) : step s = .fault (.faulted e) := by
  rcases step_cases s with ⟨e', he, hs⟩ | ⟨hnone, _⟩ | ⟨hnone, _⟩
  · cases hf.symm.trans he
    exact hs
  all_goals cases hf.symm.trans hnone

/-- The advance of a fetch in bounds does not wrap (R122). -/
theorem toNat_pc_add_two {s : State} (h : s.pc.toNat ≤ 0xFFE) : (s.pc + 2).toNat = s.pc.toNat + 2 := by
  bv_omega

/-! ## The execute phase has a next state -/

theorem exists_finish_eq_next (s : State) (r : Except FatalError State) : ∃ t, s.finish r = .next t := by
  cases r with
  | ok t => exact ⟨t, State.finish_ok s t⟩
  | error e => exact ⟨s.raise e, State.finish_error s e⟩

/-- Every execute phase answers a next state: an instruction that raises does so by `finish`, which latches the error. -/
theorem exists_exec_eq_next (i : Instr) (s : State) : ∃ t, exec i s = .next t := by
  cases i with
  | call | ret | drw | skp | sknp | ldB | ldMemVx | ldVxMem => exact exists_finish_eq_next s _
  | ldVxK x =>
    rcases execLdVxK_cases x s with ⟨_, _, h⟩ | ⟨_, h⟩
    · exact ⟨_, h⟩
    · exact ⟨_, h⟩
  | _ => exact ⟨_, rfl⟩

theorem exists_step_eq_next {s : State} (hf : s.fault = none) : ∃ t, step s = .next t := by
  rcases step_cases s with ⟨e, he, _⟩ | ⟨_, _, hs⟩ | ⟨_, _, hs⟩
  · cases hf.symm.trans he
  · rw [hs]
    exact exists_exec_eq_next _ _
  · exact ⟨_, hs⟩

/-! ## The statements -/

/-- Settles O13: such a word decodes to the no-op, and the fetch writes `PC` alone. -/
theorem undefinedWordOnlyAdvancesPc : Obligations.UndefinedWordOnlyAdvancesPc :=
  ⟨fun s hf hpc hno => ⟨s.setPc (s.pc + 2), step_of_not_selects ⟨hf, hpc⟩ hno, toNat_pc_add_two hpc,
      (keeps_setPc s _).frame⟩,
    fun w s => ⟨s, exec_undefinedNop w s, (keeps_refl s).frame⟩⟩

/-- Settles O14: by the latch, which is set (the step stops) or not (the step has a next state). -/
theorem stepHasNextExactlyWithoutFault : Obligations.StepHasNextExactlyWithoutFault := by
  intro s
  cases hf : s.fault with
  | some e => simp [step_of_fault hf]
  | none =>
    obtain ⟨t, ht⟩ := exists_step_eq_next hf
    simp [ht]

/-- Settles O11: the bytes at `PC` are `nextWord`. -/
theorem stepRunsTheEncodedInstruction : Obligations.StepRunsTheEncodedInstruction :=
  fun _ _ hi hf hpc hw => step_of_nextWord_eq_encode hi ⟨hf, hpc⟩ hw

/-- Settles O12: the raise of the fetch is a raise as any other. -/
theorem fetchOutOfBoundsLatchesTheError : Obligations.FetchOutOfBoundsLatchesTheError :=
  fun _ hf hpc => latches_of_raise (step_of_fetch_outOfBounds hf hpc)

end Sys2Proof.Proofs
end

section
/-! Control flow: the jumps (R132, R135, R283) and the call stack (R130, R131, R133, R134). -/

namespace Sys2Proof.Proofs

open Sys2Proof.Machine

/-! ## Jumps -/

theorem zext16_toNat (a : Addr) : (zext16 a).toNat = a.toNat := BitVec.toNat_setWidth_of_le (by decide)

theorem exec_jp (nnn : Addr) (s : State) : exec (.jp nnn) s = .next (s.setPc (zext16 nnn)) := rfl

theorem exec_jpV0 (nnn : Addr) (s : State) :
    exec (.jpV0 nnn) s = .next (s.setPc ((s.reg 0).setWidth 16 + zext16 nnn)) := rfl

/-- The target of an indexed jump is the exact sum: a byte and 12 bits do not reach 65536 (R135). -/
theorem toNat_setWidth_add_zext16 (b : Byte) (nnn : Addr) :
    (b.setWidth 16 + zext16 nnn).toNat = b.toNat + nnn.toNat := by
  bv_omega

/-- Settles O15: the target is `NNN`, extended by zeros. -/
theorem jumpSetsPcToTarget : Obligations.JumpSetsPcToTarget := fun nnn s =>
  ⟨_, exec_jp nnn s, zext16_toNat nnn, (keeps_setPc s _).frame⟩

/-- Settles O16: the sum is exact in 16 bits. -/
theorem indexedJumpAddsV0Exactly : Obligations.IndexedJumpAddsV0Exactly := fun nnn s =>
  ⟨_, exec_jpV0 nnn s, toNat_setWidth_add_zext16 (s.reg 0) nnn, (keeps_setPc s _).frame⟩

/-- A counter that can be fetched from is the target of a jump to its own low 12 bits (R93, R121). -/
theorem zext16_setWidth_of_le {a : Word} (h : a.toNat ≤ 0xFFE) : zext16 (a.setWidth 12) = a := by
  bv_omega

/-- Settles O55: the jump puts back the counter that the fetch advanced. -/
theorem finishedStatesStayFinished : Obligations.FinishedStatesStayFinished := by
  intro s ⟨hfetch, hjp⟩
  calc step s = exec (.jp (s.pc.setWidth 12)) (s.setPc (s.pc + 2)) := by rw [step_of_canFetch hfetch, hjp]
    _ = .next ((s.setPc (s.pc + 2)).setPc s.pc) := by rw [exec_jp, zext16_setWidth_of_le hfetch.2]
    _ = .next s := rfl

/-! ## The call stack -/

/-- Settles O17: the push sets one slot, so every other reads as before. -/
theorem callPushesTheAdvancedPc : Obligations.CallPushesTheAdvancedPc := by
  intro nnn s hsp
  obtain ⟨_, he⟩ := (execCall_cases nnn s).resolve_right fun ⟨hfull, _⟩ => by omega
  refine ⟨_, he, zext16_toNat nnn, rfl, fun k => ?_, (keeps_withStackAndPc s _ _ _).frame⟩
  simp only [Fin.getElem_fin, Vector.getElem_set, eq_comm]

/-- Settles O18: the pop moves the pointer and leaves the slots as they are. -/
theorem returnPopsTheTopSlot : Obligations.ReturnPopsTheTopSlot := by
  intro s hsp
  obtain ⟨_, he⟩ := (execRet_cases s).resolve_right fun ⟨hempty, _⟩ => hsp hempty
  refine ⟨_, he, Nat.succ_pred hsp, fun k hk => ?_, fun k => rfl, (keeps_withStackAndPc s _ _ _).frame⟩
  simp only [Fin.getElem_fin, ← hk, Nat.add_sub_cancel]

/-- Settles O19: on the full and on the empty stack each takes the raising case of its meaning. -/
theorem stackErrorsAreLatchedPrecisely : Obligations.StackErrorsAreLatchedPrecisely :=
  ⟨fun nnn s hfull => latches_of_raise ((execCall_cases nnn s).resolve_left fun ⟨hlt, _⟩ => by omega).2,
    fun s hempty => latches_of_raise ((execRet_cases s).resolve_left fun ⟨hne, _⟩ => hne hempty).2⟩

/-- Settles O20: the return reads the slot that the call wrote, by what O17 and O18 say of the two. -/
theorem returnUndoesCall : Obligations.ReturnUndoesCall := by
  intro nnn s t u hsp hcall ⟨hspu, hslots⟩
  obtain ⟨t', hcall', _, hspt, hpushed, _⟩ := callPushesTheAdvancedPc nnn s hsp
  obtain rfl := eq_of_next hcall' hcall
  have hlive : u.sp.val = s.sp.val + 1 := by rw [hspu, hspt]
  obtain ⟨v, hret, hspv, htop, _⟩ := returnPopsTheTopSlot u (by omega)
  refine ⟨v, hret, ?_, Fin.ext (by omega)⟩
  let k : Fin 16 := ⟨s.sp.val, hsp⟩
  calc v.pc = u.stack[k] := htop k hlive.symm
    _ = t'.stack[k] := hslots k
    _ = s.pc := (hpushed k).trans (if_pos rfl)

end Sys2Proof.Proofs
end

section
/-! Conditional skips on registers (R140 to R144): the counter after a skip on equality and on inequality. -/

namespace Sys2Proof.Proofs

open Sys2Proof.Machine

/-! ## The meanings as conditional skips -/

theorem exec_seImm (x : Reg) (kk : Byte) (s : State) : exec (.seImm x kk) s = .next (s.skipIf (s.reg x == kk)) := rfl

theorem exec_sneImm (x : Reg) (kk : Byte) (s : State) : exec (.sneImm x kk) s = .next (s.skipIf (s.reg x != kk)) := rfl

theorem exec_seReg (x y : Reg) (s : State) : exec (.seReg x y) s = .next (s.skipIf (s.reg x == s.reg y)) := rfl

theorem exec_sneReg (x y : Reg) (s : State) : exec (.sneReg x y) s = .next (s.skipIf (s.reg x != s.reg y)) := rfl

/-! ## The counter after a skip -/

theorem skipIf_pc (s : State) (c : Bool) : (s.skipIf c).pc = if c then s.pc + 2 else s.pc := by
  rw [State.skipIf_eq_setPc, State.setPc_pc]

theorem skipIf_beq_pc (s : State) (a b : Byte) : (s.skipIf (a == b)).pc = if a = b then s.pc + 2 else s.pc := by
  simp only [skipIf_pc, beq_iff_eq]

theorem skipIf_bne_pc (s : State) (a b : Byte) : (s.skipIf (a != b)).pc = if a = b then s.pc else s.pc + 2 := by
  simp only [skipIf_pc, bne_iff_ne, ite_not]

/-! ## The statements -/

/-- Settles O21: `V[X]` is compared with the immediate, and a skip writes `PC` alone. -/
theorem immediateSkipsTestEquality : Obligations.ImmediateSkipsTestEquality := fun x kk s =>
  ⟨⟨_, exec_seImm x kk s, skipIf_beq_pc s _ _, (keeps_skipIf s _).frame⟩,
    ⟨_, exec_sneImm x kk s, skipIf_bne_pc s _ _, (keeps_skipIf s _).frame⟩⟩

/-- Settles O22: `V[X]` is compared with `V[Y]`, and a skip writes `PC` alone. -/
theorem registerSkipsTestEquality : Obligations.RegisterSkipsTestEquality := fun x y s =>
  ⟨⟨_, exec_seReg x y s, skipIf_beq_pc s _ _, (keeps_skipIf s _).frame⟩,
    ⟨_, exec_sneReg x y s, skipIf_bne_pc s _ _, (keeps_skipIf s _).frame⟩⟩

end Sys2Proof.Proofs
end

section
/-! Moves, adds and bitwise logic on registers (R150 to R155, R160): what the destination and `VF` read, and what is
kept, after a write of one register and after a result with its flag. -/

namespace Sys2Proof.Proofs

open Sys2Proof.Machine

/-! ## The meanings as register writes -/

theorem exec_ldImm (x : Reg) (kk : Byte) (s : State) : exec (.ldImm x kk) s = .next (s.setReg x kk) := rfl

theorem exec_ldReg (x y : Reg) (s : State) : exec (.ldReg x y) s = .next (s.setReg x (s.reg y)) := rfl

theorem exec_orReg (x y : Reg) (s : State) :
    exec (.orReg x y) s = .next (s.setReg x (s.reg x ||| s.reg y)) := rfl

theorem exec_andReg (x y : Reg) (s : State) :
    exec (.andReg x y) s = .next (s.setReg x (s.reg x &&& s.reg y)) := rfl

theorem exec_xorReg (x y : Reg) (s : State) :
    exec (.xorReg x y) s = .next (s.setReg x (s.reg x ^^^ s.reg y)) := rfl

theorem exec_addImm (x : Reg) (kk : Byte) (s : State) : exec (.addImm x kk) s =
    .next (s.setResultThenFlag x (addResult (s.reg x) kk) (carryFlag (s.reg x) kk)) := rfl

theorem exec_addReg (x y : Reg) (s : State) : exec (.addReg x y) s =
    .next (s.setResultThenFlag x (addResult (s.reg x) (s.reg y)) (carryFlag (s.reg x) (s.reg y))) := rfl

/-! ## A write of one register -/

section
variable (s : State) (x : Reg) (b : Byte)

theorem reg_setReg_self : (s.setReg x b).reg x = b := by
  rw [State.reg_setReg, if_pos rfl]

theorem regsOutside_setReg : RegsOutside [x] s (s.setReg x b) := fun j hj => by
  rw [State.reg_setReg, if_neg (List.ne_of_not_mem_cons hj)]

theorem keeps_setReg : Keeps [.regs] s (s.setReg x b) := keeps_withRegs s _ _

end

/-! ## A result with its flag: the flag is written last (R38) -/

section
variable (s : State) (x : Reg) (r f : Byte)

theorem reg_VF_setResultThenFlag : (s.setResultThenFlag x r f).reg VF = f := by
  rw [State.reg_setResultThenFlag, if_pos rfl]

theorem reg_setResultThenFlag_of_ne (h : x ≠ VF) : (s.setResultThenFlag x r f).reg x = r := by
  rw [State.reg_setResultThenFlag, if_neg h, if_pos rfl]

theorem regsOutside_setResultThenFlag : RegsOutside [x, VF] s (s.setResultThenFlag x r f) := fun j hj => by
  obtain ⟨hx, hvf⟩ : j ≠ x ∧ j ≠ VF := by simpa using hj
  rw [State.reg_setResultThenFlag, if_neg hvf, if_neg hx]

theorem keeps_setResultThenFlag : Keeps [.regs] s (s.setResultThenFlag x r f) := keeps_withRegs s _ _

end

/-! ## The sum and its carry -/

theorem toNat_addResult (a b : Byte) : (addResult a b).toNat = (a.toNat + b.toNat) % 256 := BitVec.toNat_ofNat _ _

theorem bit_decide (p : Prop) [Decidable p] : bit (decide p) = if p then 1 else 0 := by
  simp only [bit, decide_eq_true_eq]

/-- The carry that an add leaves in `VF`, for every destination (R151, R160, D4). -/
theorem reg_VF_of_carry (s : State) (x : Reg) (r a b : Byte) :
    (s.setResultThenFlag x r (carryFlag a b)).reg VF = if a.toNat + b.toNat > 255 then 1 else 0 := by
  rw [reg_VF_setResultThenFlag, carryFlag, bit_decide]

/-- The sum that an add leaves in a destination other than `VF` (R151, R160). -/
theorem toNat_reg_of_sum (s : State) (x : Reg) (a b f : Byte) (h : x ≠ VF) :
    ((s.setResultThenFlag x (addResult a b) f).reg x).toNat = (a.toNat + b.toNat) % 256 := by
  rw [reg_setResultThenFlag_of_ne s x _ _ h, toNat_addResult]

/-! ## The statements -/

/-- Settles O26: the two adds are one write of a sum and its carry, the second operand the immediate or `V[Y]`. -/
theorem addsWriteSumThenCarry : Obligations.AddsWriteSumThenCarry := fun x y kk s =>
  ⟨⟨_, exec_addImm x kk s, reg_VF_of_carry s x _ _ _, toNat_reg_of_sum s x _ _ _,
      regsOutside_setResultThenFlag s x _ _, (keeps_setResultThenFlag s x _ _).frame⟩,
    ⟨_, exec_addReg x y s, reg_VF_of_carry s x _ _ _, toNat_reg_of_sum s x _ _ _,
      regsOutside_setResultThenFlag s x _ _, (keeps_setResultThenFlag s x _ _).frame⟩⟩

/-- Settles O25: each of the three writes `V[X]` alone, by the library's law of a bit of the operation. -/
theorem logicIsBitwiseAndKeepsVF : Obligations.LogicIsBitwiseAndKeepsVF := fun x y s =>
  ⟨⟨_, exec_orReg x y s, regsOutside_setReg s x _, (keeps_setReg s x _).frame, fun _ _ => by
      rw [reg_setReg_self, BitVec.getLsbD_or]⟩,
    ⟨_, exec_andReg x y s, regsOutside_setReg s x _, (keeps_setReg s x _).frame, fun _ _ => by
      rw [reg_setReg_self, BitVec.getLsbD_and]⟩,
    ⟨_, exec_xorReg x y s, regsOutside_setReg s x _, (keeps_setReg s x _).frame, fun _ _ => by
      rw [reg_setReg_self, BitVec.getLsbD_xor]⟩⟩

/-- Settles O23: the write of the immediate, as `V[X]` and every other register read it. -/
theorem loadImmediateWritesOneRegister : Obligations.LoadImmediateWritesOneRegister := fun x kk s =>
  ⟨_, exec_ldImm x kk s, reg_setReg_self s x kk, regsOutside_setReg s x kk, (keeps_setReg s x kk).frame⟩

/-- Settles O24: the write of what `V[Y]` held before it. -/
theorem registerMoveCopies : Obligations.RegisterMoveCopies := fun x y s =>
  ⟨_, exec_ldReg x y s, reg_setReg_self s x _, regsOutside_setReg s x _, (keeps_setReg s x _).frame⟩

end Sys2Proof.Proofs
end

section
/-! Subtractions and shifts of registers (R161 to R164): the difference with its no-borrow flag, the halved and the
doubled byte with the bit each shift flags. -/

namespace Sys2Proof.Proofs

open Sys2Proof.Machine

/-! ## The meanings as a result with its flag -/

theorem exec_sub (x y : Reg) (s : State) : exec (.sub x y) s =
    .next (s.setResultThenFlag x (subResult (s.reg x) (s.reg y)) (noBorrowFlag (s.reg x) (s.reg y))) := rfl

theorem exec_subn (x y : Reg) (s : State) : exec (.subn x y) s =
    .next (s.setResultThenFlag x (subResult (s.reg y) (s.reg x)) (noBorrowFlag (s.reg y) (s.reg x))) := rfl

theorem exec_shr (x y : Reg) (s : State) : exec (.shr x y) s =
    .next (s.setResultThenFlag x (shrResult (s.reg x)) (shrFlag (s.reg x))) := rfl

theorem exec_shl (x y : Reg) (s : State) : exec (.shl x y) s =
    .next (s.setResultThenFlag x (shlResult (s.reg x)) (shlFlag (s.reg x))) := rfl

/-! ## The results -/

section
variable (a b : Byte)

/-- The exact difference, or the difference plus 256 when the plain one would be negative (R161, R162). -/
theorem toNat_subResult : (subResult a b).toNat =
    if a.toNat ≥ b.toNat then a.toNat - b.toNat else a.toNat + 256 - b.toNat := by
  have ha : a.toNat < 256 := a.isLt
  have hmod : (subResult a b).toNat = (a.toNat + 256 - b.toNat) % 256 := BitVec.toNat_ofNat _ _
  rw [hmod]
  split
  case isTrue h => omega
  case isFalse h => exact Nat.mod_eq_of_lt (by omega)

theorem toNat_shrResult : (shrResult a).toNat = a.toNat / 2 :=
  (BitVec.toNat_ofNat _ _).trans (Nat.mod_eq_of_lt (Nat.lt_of_le_of_lt (Nat.div_le_self _ _) a.isLt))

theorem toNat_shlResult : (shlResult a).toNat = 2 * a.toNat % 256 := BitVec.toNat_ofNat _ _

/-! ## The flags -/

theorem noBorrowFlag_eq_ite : noBorrowFlag a b = if a.toNat ≥ b.toNat then 1 else 0 := bit_decide _

/-- A bit of a byte as a flag, by division: bit `k` is the parity of `⌊a / 2 ^ k⌋` (R6). -/
theorem bit_getLsbD (k : Nat) : bit (a.getLsbD k) = if a.toNat / 2 ^ k % 2 = 1 then 1 else 0 := by
  rw [BitVec.getLsbD, Nat.testBit_eq_decide_div_mod_eq, bit_decide]

theorem shrFlag_eq_ite : shrFlag a = if a.toNat % 2 = 1 then 1 else 0 := by
  rw [shrFlag, bit_getLsbD, Nat.pow_zero, Nat.div_one]

/-- The mask 0x08 of the left shift is bit 3, the parity of `⌊a / 8⌋` (R164, D5). -/
theorem shlFlag_eq_ite : shlFlag a = if a.toNat / 8 % 2 = 1 then 1 else 0 := bit_getLsbD a 3

end

/-! ## The statements -/

/-- What an instruction that writes a result and then its flag leaves: the flag in `VF`, the result in any other
destination (R38, D4), and the rest of the machine as it was. -/
theorem exec_resultThenFlag_spec {i : Instr} {s : State} {x : Reg} {r f flag : Byte} {result : Nat}
    (hexec : exec i s = .next (s.setResultThenFlag x r f)) (hflag : f = flag) (hresult : r.toNat = result) :
    ∃ t, exec i s = .next t ∧ t.reg VF = flag ∧ (x ≠ VF → (t.reg x).toNat = result) ∧
      RegsOutside [x, VF] s t ∧ Frame [.regs] s t := by
  refine ⟨_, hexec, ?_, fun hx => ?_, regsOutside_setResultThenFlag s x r f, (keeps_setResultThenFlag s x r f).frame⟩
  · rw [reg_VF_setResultThenFlag, hflag]
  · rw [reg_setResultThenFlag_of_ne s x r f hx, hresult]

/-- Settles O27: both subtractions write a wrapped difference and its no-borrow flag, `SUBN` with the operands
exchanged. -/
theorem subtractsWriteDifferenceThenNoBorrow : Obligations.SubtractsWriteDifferenceThenNoBorrow := fun x y s =>
  ⟨exec_resultThenFlag_spec (exec_sub x y s) (noBorrowFlag_eq_ite _ _) (toNat_subResult _ _),
    exec_resultThenFlag_spec (exec_subn x y s) (noBorrowFlag_eq_ite _ _) (toNat_subResult _ _)⟩

/-- Settles O28: both shifts read `V[X]` alone; the flags are its bits 0 and 3 before the shift. -/
theorem shiftsFlagBitZeroAndBitThree : Obligations.ShiftsFlagBitZeroAndBitThree := fun x y s =>
  ⟨exec_resultThenFlag_spec (exec_shr x y s) (shrFlag_eq_ite _) (toNat_shrResult _),
    exec_resultThenFlag_spec (exec_shl x y s) (shlFlag_eq_ite _) (toNat_shlResult _)⟩

end Sys2Proof.Proofs
end

section
/-! The index register (R170 to R172) and the random byte (R173, R126): the three writes of `I`, the masked draw of an
execute phase and of the host's step, and the other instructions' independence of the step's input. -/

namespace Sys2Proof.Proofs

open Sys2Proof.Machine

/-! ## The meanings as writes -/

theorem exec_ldI (nnn : Addr) (s : State) : exec (.ldI nnn) s = .next (s.setI (zext16 nnn)) := rfl

theorem exec_addI (x : Reg) (s : State) : exec (.addI x) s = .next (s.setI (s.i + (s.reg x).setWidth 16)) := rfl

theorem exec_ldF (x : Reg) (s : State) :
    exec (.ldF x) s = .next (s.setI (BitVec.ofNat 16 (5 * (s.reg x).toNat))) := rfl

theorem exec_rnd (x : Reg) (kk : Byte) (s : State) :
    exec (.rnd x kk) s = .next { s.setReg x (s.rnd.byte &&& kk) with rnd := s.rnd.next } := rfl

/-! ## The index register -/

/-- The index after an add is the sum modulo 65536 (R171). -/
theorem toNat_add_setWidth (a : Word) (b : Byte) : (a + b.setWidth 16).toNat = (a.toNat + b.toNat) % 65536 := by
  rw [BitVec.toNat_add, BitVec.toNat_setWidth_of_le (by decide)]

/-- Five times a byte is at most 1275, so the index holds the whole product (R172). -/
theorem toNat_ofNat_five_mul (b : Byte) : (BitVec.ofNat 16 (5 * b.toNat)).toNat = 5 * b.toNat := by
  have hb : b.toNat < 256 := b.isLt
  rw [BitVec.toNat_ofNat]
  exact Nat.mod_eq_of_lt (by omega)

/-- Settles O29: the zero extension has the value of `NNN`. -/
theorem loadIndexSetsI : Obligations.LoadIndexSetsI := fun nnn s =>
  ⟨_, exec_ldI nnn s, zext16_toNat nnn, (keeps_setI s _).frame⟩

/-- Settles O30: both are one write of `I`, of the wrapped sum and of the product, which does not wrap. -/
theorem indexArithmeticWritesOnlyI : Obligations.IndexArithmeticWritesOnlyI := fun x s =>
  ⟨⟨_, exec_addI x s, toNat_add_setWidth _ _, (keeps_setI s _).frame⟩,
    ⟨_, exec_ldF x s, toNat_ofNat_five_mul _, (keeps_setI s _).frame⟩⟩

/-! ## The masked draw -/

/-- A bit that is 0 in the mask is 0 in the draw (R173). -/
theorem getLsbD_and_eq_false (a : Byte) {kk : Byte} {b : Nat} (h : kk.getLsbD b = false) :
    (a &&& kk).getLsbD b = false := by
  rw [BitVec.getLsbD_and, h, Bool.and_false]

theorem keeps_setPc_setReg (s : State) (a : Word) (x : Reg) (b : Byte) :
    Keeps [.regs, .pc] s ((s.setPc a).setReg x b) := by
  intro p hp; cases p <;> simp_all [SameData]

section
variable {x : Reg} {kk : Byte} {s : State} (h : s.canFetch) (hw : decodeWord s.nextWord = .rnd x kk)
include h hw

/-- A step that finds a CXKK advances `PC`, writes the masked draw, and uses the input up (R122, R173). -/
theorem step_rnd :
    step s = .next { (s.setPc (s.pc + 2)).setReg x (s.rnd.byte &&& kk) with rnd := s.rnd.next } := by
  rw [step_of_canFetch h, hw, exec_rnd, State.setPc_rnd]

/-- The host's step takes its byte as the draw; the input beside the machine stays (R120, R126). -/
theorem stepOp_rnd (rnd : Byte) : stepOp rnd s = (s.setPc (s.pc + 2)).setReg x (rnd &&& kk) := by
  rcases stepOp_cases rnd s with ⟨⟨e, he⟩, _⟩ | ⟨_, hop⟩
  · cases h.1.symm.trans he
  · exact hop _ (step_rnd (s := { s with rnd := { given := some rnd, drawn := 0 } }) h hw)

end

/-! ## The other instructions ignore the input -/

section
variable {s t : State} {r : StepInput}

theorem skipIf_withRnd (s : State) (r : StepInput) (c : Bool) :
    State.skipIf { s with rnd := r } c = { s.skipIf c with rnd := r } := by
  cases c <;> rfl

/-- Two executions that answer by the same two exclusive cases, with results that differ in the input alone, answer
next states that differ in it alone. -/
theorem next_withRnd_of_cases {p q : Prop} {o o' : Result} {u : p → State} {v : State} (hpq : ¬ (p ∧ q))
    (hs : (∃ h : p, o = .next (u h)) ∨ (q ∧ o = .next v))
    (hs' : (∃ h : p, o' = .next { u h with rnd := r }) ∨ (q ∧ o' = .next { v with rnd := r }))
    (h : o = .next t) : o' = .next { t with rnd := r } := by
  rcases hs with ⟨hp, he⟩ | ⟨hq, he⟩ <;> obtain rfl := eq_of_next he h
  · obtain ⟨_, he'⟩ := hs'.resolve_right fun hq => hpq ⟨hp, hq.1⟩
    exact he'
  · exact (hs'.resolve_left fun ⟨hp, _⟩ => hpq ⟨hp, hq⟩).2

/-- Only CXKK reads the step's input or uses it up (R126): what the others check and write is of the machine alone. -/
theorem exec_withRnd {i : Instr} (hi : ∀ x kk, i ≠ .rnd x kk) (h : exec i s = .next t) :
    exec i { s with rnd := r } = .next { t with rnd := r } := by
  cases i with
  | rnd x kk => exact absurd rfl (hi x kk)
  | seImm _ _ | sneImm _ _ | seReg _ _ | sneReg _ _ =>
    obtain rfl := Host.Outcome.next.inj h
    exact congrArg Host.Outcome.next (skipIf_withRnd s r _)
  | call nnn => exact next_withRnd_of_cases (by omega) (execCall_cases nnn s) (execCall_cases nnn { s with rnd := r }) h
  | ret => exact next_withRnd_of_cases (by omega) (execRet_cases s) (execRet_cases { s with rnd := r }) h
  | drw x y n =>
    exact next_withRnd_of_cases (by omega) ((execDrw_cases x y n s).imp exists_prop.2 and_assoc.2)
      ((execDrw_cases x y n { s with rnd := r }).imp exists_prop.2 and_assoc.2) h
  | skp x => exact next_withRnd_of_cases (by omega) (execSkp_cases x s) (execSkp_cases x { s with rnd := r }) h
  | sknp x => exact next_withRnd_of_cases (by omega) (execSknp_cases x s) (execSknp_cases x { s with rnd := r }) h
  | ldVxK x =>
    rcases execLdVxK_cases x s with ⟨k, hk, he⟩ | ⟨hk, he⟩ <;> obtain rfl := eq_of_next he h
    · exact execLdVxK_of_some x hk
    · exact execLdVxK_of_none x hk
  | ldB x =>
    exact next_withRnd_of_cases (by omega) ((execLdB_cases x s).imp_left exists_prop.2)
      ((execLdB_cases x { s with rnd := r }).imp_left exists_prop.2) h
  | ldMemVx x =>
    exact next_withRnd_of_cases (by omega) ((execLdMemVx_cases x s).imp_left exists_prop.2)
      ((execLdMemVx_cases x { s with rnd := r }).imp_left exists_prop.2) h
  | ldVxMem x =>
    exact next_withRnd_of_cases (by omega) ((execLdVxMem_cases x s).imp_left exists_prop.2)
      ((execLdVxMem_cases x { s with rnd := r }).imp_left exists_prop.2) h
  | _ =>
    obtain rfl := Host.Outcome.next.inj h
    rfl

end

/-- Settles O31: the draw of the execute phase, that of the host's step, and `exec_withRnd` for every other
instruction. -/
theorem randomWritesAMaskedDraw : Obligations.RandomWritesAMaskedDraw := by
  refine ⟨fun x kk s => ⟨?_, fun hf hpc hw f rnd => ?_⟩, fun _ _ _ _ => exec_withRnd⟩
  · refine ⟨_, exec_rnd x kk s, reg_setReg_self s x _, fun b _ hb => ?_, regsOutside_setReg s x _,
      Keeps.frame (keeps_withRegs s _ _)⟩
    exact (congrArg (BitVec.getLsbD · b) (reg_setReg_self s x _)).trans (getLsbD_and_eq_false _ hb)
  · have hstep : perform f (.step rnd) s = (s.setPc (s.pc + 2)).setReg x (rnd &&& kk) :=
      stepOp_rnd ⟨hf, hpc⟩ hw rnd
    rw [hstep]
    exact ⟨reg_setReg_self _ x _, rfl, regsOutside_setReg (s.setPc _) x _, (keeps_setPc_setReg s _ x _).frame⟩

end Sys2Proof.Proofs
end

section
/-! Display (R180 to R182): the cleared screen, and a draw as a toggle of the distinct cells that its sprite names. -/

namespace Sys2Proof.Proofs

open Sys2Proof.Machine

/-! ## The clear -/

theorem exec_cls (s : State) : exec .cls s = .next { s with fb := Framebuffer.clear } := rfl

/-- Settles O32: a cell of the cleared framebuffer is unset, and the framebuffer is the one component written. -/
theorem clearUnsetsEveryPixel : Obligations.ClearUnsetsEveryPixel := fun s =>
  ⟨_, exec_cls s, Framebuffer.cell_clear, (keeps_withFb s _).frame⟩

/-! ## The cells of a draw -/

/-- The cells that DXYN toggles in `s`, in the order in which R180 visits them. -/
def drawnCells (x y : Reg) (n : Fin 16) (s : State) : List (Fin 2048) :=
  spriteCells (s.reg x) (s.reg y) 0 (Memory.bytesAt s.mem s.i.toNat n.val)

section
variable (x y : Reg) (n : Fin 16) (s : State)

theorem drawnCells_nodup : (drawnCells x y n s).Nodup :=
  spriteCells_nodup _ _ _ _ (by rw [Memory.length_bytesAt]; omega)

/-- The cells of a draw are the cells that the sprite covers (R182). -/
theorem mem_drawnCells_iff {p : Fin 2048} : p ∈ drawnCells x y n s ↔ covers s x y n p := by
  rw [drawnCells, mem_spriteCells, Memory.length_bytesAt]
  constructor
  · rintro ⟨r, hr, c, hc, hbit, rfl⟩
    rw [Memory.getD_bytesAt _ _ _ _ _ hr] at hbit
    exact ⟨r, c, hr, hc, hbit, by rw [Nat.zero_add]; rfl⟩
  · rintro ⟨r, c, hr, hc, hbit, hp⟩
    refine ⟨r, hr, c, hc, ?_, ?_⟩
    · rw [Memory.getD_bytesAt _ _ _ _ _ hr]; exact hbit
    · rw [Nat.zero_add]; exact Fin.ext hp.symm

/-! ## The state after a draw -/

/-- The state after a draw that does not raise: its cells toggled, then the collision flag in `VF` (R180). -/
def drawSprite : State :=
  State.setReg { s with fb := (toggleCells s.fb false (drawnCells x y n s)).1 } VF
    (bit (toggleCells s.fb false (drawnCells x y n s)).2)

theorem pixel_drawSprite (p : Fin 2048) :
    (drawSprite x y n s).pixel p = (s.pixel p ^^ decide (p ∈ drawnCells x y n s)) :=
  cell_toggleCells _ _ _ (drawnCells_nodup x y n s) p

theorem reg_VF_drawSprite : (drawSprite x y n s).reg VF = bit ((drawnCells x y n s).any s.pixel) := by
  rw [drawSprite, State.reg_setReg, if_pos rfl, hit_toggleCells _ _ _ (drawnCells_nodup x y n s), Bool.false_or]
  rfl

/-- A draw changes the cells of the next one only through its coordinates, of which `VF` may be one. -/
theorem drawnCells_drawSprite (hx : (drawSprite x y n s).reg x = s.reg x) (hy : (drawSprite x y n s).reg y = s.reg y) :
    drawnCells x y n (drawSprite x y n s) = drawnCells x y n s := by
  rw [drawnCells, hx, hy]; rfl

end

/-! ## The meaning of a draw -/

/-- No row of the sprite at `I` is at an address of 4096 or more; a draw of no row reads none (R180, D21). -/
def RowsInBounds (n : Fin 16) (s : State) : Prop := n.val = 0 ∨ s.i.toNat + n.val ≤ 4096

section
variable {x y : Reg} {n : Fin 16} {s : State}

theorem exec_drw_of_rowsInBounds (h : RowsInBounds n s) : exec (.drw x y n) s = .next (drawSprite x y n s) := by
  rcases execDrw_cases x y n s with ⟨_, he⟩ | ⟨hn, hi, _⟩
  · exact he
  · exact absurd h (by simp only [RowsInBounds]; omega)

theorem exec_drw_of_not_rowsInBounds (h : ¬ RowsInBounds n s) :
    exec (.drw x y n) s = .next (s.raise .memoryOutOfBounds) := by
  rcases execDrw_cases x y n s with ⟨hb, _⟩ | ⟨_, _, he⟩
  · exact absurd hb h
  · exact he

end

/-! ## The statements -/

/-- Settles O33: each cell is toggled once at most, and the flag is whether a toggled cell was set before. -/
theorem drawTogglesExactlyTheSprite : Obligations.DrawTogglesExactlyTheSprite := by
  intro x y n s hb
  have hrows : RowsInBounds n s := by simp only [RowsInBounds]; omega
  have hcollision : (drawnCells x y n s).any s.pixel = true ↔ ∃ p, covers s x y n p ∧ s.pixel p = true := by
    simp only [List.any_eq_true, mem_drawnCells_iff]
  refine ⟨_, exec_drw_of_rowsInBounds hrows, fun p => ⟨fun hp => ?toggled, fun hp => ?kept⟩, fun h => ?hit,
    fun h => ?noHit, fun j hj => ?regs, (keeps_withFbAndReg s _ _ _).frame⟩
  case toggled => rw [pixel_drawSprite, decide_eq_true ((mem_drawnCells_iff ..).2 hp), Bool.xor_true]
  case kept => rw [pixel_drawSprite, decide_eq_false (mt (mem_drawnCells_iff ..).1 hp), Bool.xor_false]
  case hit => rw [reg_VF_drawSprite, hcollision.2 h]; rfl
  case noHit => rw [reg_VF_drawSprite, Bool.eq_false_iff.2 (mt hcollision.1 h)]; rfl
  case regs => exact (State.reg_setReg _ VF j _).trans (if_neg (by simpa using hj))

/-- Settles O34: the second draw names the same cells, and a cell toggled twice is as before; a draw that raises leaves
the screen and `I`, so the second raises too. -/
theorem drawingTwiceRestoresTheScreen : Obligations.DrawingTwiceRestoresTheScreen := by
  intro x y n s t u ht hx hy hu
  by_cases hb : RowsInBounds n s
  · obtain rfl := eq_of_next (exec_drw_of_rowsInBounds hb) ht
    have hb' : RowsInBounds n (drawSprite x y n s) := hb
    obtain rfl := eq_of_next (exec_drw_of_rowsInBounds hb') hu
    intro p
    rw [pixel_drawSprite, pixel_drawSprite, drawnCells_drawSprite x y n s hx hy, Bool.xor_assoc, Bool.xor_self,
      Bool.xor_false]
  · obtain rfl := eq_of_next (exec_drw_of_not_rowsInBounds hb) ht
    have hb' : ¬ RowsInBounds n (s.raise .memoryOutOfBounds) := hb
    obtain rfl := eq_of_next (exec_drw_of_not_rowsInBounds hb') hu
    intro p
    rfl

end Sys2Proof.Proofs
end

section
/-! Keys and timers (R190 to R195): the key tests on both sides of the index bound, the three timer moves, and the key
wait in the execute phase and as a whole step. -/

namespace Sys2Proof.Proofs

open Sys2Proof.Machine

/-! ## The meanings in each case -/

theorem exec_ldVxDt (x : Reg) (s : State) : exec (.ldVxDt x) s = .next (s.setReg x s.dt) := rfl

theorem exec_ldDtVx (x : Reg) (s : State) : exec (.ldDtVx x) s = .next { s with dt := s.reg x } := rfl

theorem exec_ldStVx (x : Reg) (s : State) : exec (.ldStVx x) s = .next { s with st := s.reg x } := rfl

/-- With no key pressed the key wait is the rewind of the counter (R195). -/
theorem exec_ldVxK_of_no_key {s : State} (x : Reg) (h : ∀ k : Fin 16, s.key[k] = false) :
    exec (.ldVxK x) s = .next (s.setPc (s.pc - 2)) :=
  execLdVxK_of_none x (s.lowestKey_eq_none.2 h)

/-- A key index is one of 16, so a byte holds it whole (R195). -/
theorem toNat_ofNat_key (k : Fin 16) : (BitVec.ofNat 8 k.val).toNat = k.val := by
  rw [BitVec.toNat_ofNat]
  exact Nat.mod_eq_of_lt (by omega)

/-! ## The statements -/

/-- Settles O35: an index of at most 15 rules out the raising case of both key tests. -/
theorem keyTestsSkipOnTheKeyLevel : Obligations.KeyTestsSkipOnTheKeyLevel := by
  intro x s h
  obtain ⟨_, hskp⟩ := (execSkp_cases x s).resolve_right fun ⟨hgt, _⟩ => by omega
  obtain ⟨_, hsknp⟩ := (execSknp_cases x s).resolve_right fun ⟨hgt, _⟩ => by omega
  exact ⟨⟨_, hskp, rfl, (keeps_setPc s _).frame⟩, ⟨_, hsknp, rfl, (keeps_setPc s _).frame⟩⟩

/-- Settles O36: an index above 15 leaves the raising case of both key tests alone. -/
theorem keyTestsAboveFifteenRaise : Obligations.KeyTestsAboveFifteenRaise := fun x s h =>
  ⟨latches_of_raise ((execSkp_cases x s).resolve_left fun ⟨hlt, _⟩ => by omega).2,
    latches_of_raise ((execSknp_cases x s).resolve_left fun ⟨hlt, _⟩ => by omega).2⟩

/-- Settles O37: a write of `V[X]`, of the delay timer and of the sound timer. -/
theorem timerMovesCopyWholeBytes : Obligations.TimerMovesCopyWholeBytes := fun x s =>
  ⟨⟨_, exec_ldVxDt x s, reg_setReg_self s x _, regsOutside_setReg s x _, (keeps_setReg s x _).frame⟩,
    ⟨_, exec_ldDtVx x s, rfl, (keeps_withDt s _).frame⟩, ⟨_, exec_ldStVx x s, rfl, (keeps_withSt s _).frame⟩⟩

/-- Settles O38: the key that the search finds is the least pressed one, and it finds none when none is pressed. -/
theorem keyWaitTakesTheLowestKeyOrRewinds : Obligations.KeyWaitTakesTheLowestKeyOrRewinds := by
  intro x s
  refine ⟨fun k hk hmin => ?pressed, fun hnone => ?waiting⟩
  case pressed =>
    refine ⟨_, execLdVxK_of_some x ((s.lowestKey_eq_some k).2 ⟨hk, hmin⟩), ?_, regsOutside_setReg s x _,
      (keeps_setReg s x _).frame⟩
    rw [reg_setReg_self, toNat_ofNat_key]
  case waiting => exact ⟨_, exec_ldVxK_of_no_key x hnone, rfl, (keeps_setPc s _).frame⟩

/-- Settles O39: the rewind takes back the advance of the fetch. -/
theorem waitingStepLeavesTheWholeState : Obligations.WaitingStepLeavesTheWholeState := by
  intro x s hf hpc hw hkey
  calc step s = exec (.ldVxK x) (s.setPc (s.pc + 2)) := by rw [step_of_canFetch ⟨hf, hpc⟩, hw]
    _ = .next ((s.setPc (s.pc + 2)).setPc (s.pc + 2 - 2)) := exec_ldVxK_of_no_key x hkey
    _ = .next s := by rw [BitVec.add_sub_cancel]; rfl

end Sys2Proof.Proofs
end

section
/-! Memory instructions (R200 to R203): what memory reads after a block of bytes is stored, the decimal digits, and the
block store and load within bounds. -/

namespace Sys2Proof.Proofs

open Sys2Proof.Machine

/-! ## Memory after a store of bytes -/

/-- Read after a store of bytes: byte `k` of the list at address `a + k`. -/
theorem byteAt_putBytes_add (m : Memory) (a : Nat) {bs : List Byte} {k : Nat} (h : k < bs.length) :
    Memory.byteAt (Memory.putBytes m a bs) (a + k) = bs[k] := by
  rw [Memory.byteAt_putBytes, if_pos ⟨Nat.le_add_right _ _, Nat.add_lt_add_left h a⟩, Nat.add_sub_cancel_left,
    List.getD_eq_getElem _ _ h]

theorem memoryOutside_putBytes (s : State) (a : Nat) (bs : List Byte) :
    MemoryOutside a bs.length s { s with mem := Memory.putBytes s.mem a bs } :=
  fun b hb => Memory.byteAt_putBytes_outside bs s.mem a b hb

/-! ## The meanings within bounds -/

section
variable {x : Reg} {s : State}

theorem exec_ldB_of_inBounds (h : s.i.toNat + 2 ≤ 0xFFF) : exec (.ldB x) s =
    .next { s with mem := Memory.putBytes s.mem s.i.toNat (decimalDigits (s.reg x)) } :=
  ((execLdB_cases x s).resolve_right fun ⟨hgt, _⟩ => by omega).2

theorem exec_ldVxMem_of_inBounds (h : s.i.toNat + x.val ≤ 0xFFF) : exec (.ldVxMem x) s =
    .next (s.setBlock (Memory.bytesAt s.mem s.i.toNat (x.val + 1))) :=
  ((execLdVxMem_cases x s).resolve_right fun ⟨hgt, _⟩ => by omega).2

end

/-! ## Digits and loaded registers -/

/-- A quotient or remainder of a byte fits a byte, so a digit is stored whole (R200). -/
theorem toNat_ofNat_of_le (b : Byte) {d : Nat} (h : d ≤ b.toNat) : (BitVec.ofNat 8 d).toNat = d := by
  rw [BitVec.toNat_ofNat]
  exact Nat.mod_eq_of_lt (h.trans_lt b.isLt)

section
variable (s : State) (a : Nat) {x j : Reg}

/-- A register that a block load reaches reads its byte of memory (R202). -/
theorem reg_setBlock_bytesAt_of_le (h : j ≤ x) :
    (s.setBlock (Memory.bytesAt s.mem a (x.val + 1))).reg j = s.byteAt (a + j.val) := by
  rw [State.reg_setBlock, Memory.getD_bytesAt _ _ _ _ _ (Nat.lt_succ_of_le h)]
  rfl

/-- A register above the block keeps its value (R202). -/
theorem reg_setBlock_bytesAt_of_lt (h : x < j) :
    (s.setBlock (Memory.bytesAt s.mem a (x.val + 1))).reg j = s.reg j := by
  rw [State.reg_setBlock, List.getD_eq_default _ _ (by rw [Memory.length_bytesAt]; exact h)]

theorem keeps_setBlock (bs : List Byte) : Keeps [.regs] s (s.setBlock bs) := keeps_withRegs s _ _

end

/-! ## The statements -/

/-- Settles O40: the three bytes stored are the digits, each of them at most the byte it is taken from. -/
theorem bcdStoresThreeDigits : Obligations.BcdStoresThreeDigits := by
  intro x s h
  have hstored := fun k => byteAt_putBytes_add s.mem s.i.toNat (bs := decimalDigits (s.reg x)) (k := k)
  have hout := memoryOutside_putBytes s s.i.toNat (decimalDigits (s.reg x))
  refine ⟨_, exec_ldB_of_inBounds h, ?hundreds, ?tens, ?ones, hout, (keeps_withMem s _).frame⟩
  case hundreds =>
    exact (congrArg BitVec.toNat (hstored 0 (by simp))).trans (toNat_ofNat_of_le _ (Nat.div_le_self _ _))
  case tens =>
    exact (congrArg BitVec.toNat (hstored 1 (by simp))).trans
      (toNat_ofNat_of_le _ ((Nat.mod_le _ _).trans (Nat.div_le_self _ _)))
  case ones =>
    exact (congrArg BitVec.toNat (hstored 2 (by simp))).trans (toNat_ofNat_of_le _ (Nat.mod_le _ _))

/-- Settles O41: the bytes stored are the register block, `X + 1` of them. -/
theorem blockStoreCopiesRegisters : Obligations.BlockStoreCopiesRegisters := by
  intro x s h
  have hout := memoryOutside_putBytes s s.i.toNat (s.block x)
  rw [State.length_block] at hout
  exact ⟨_, exec_ldMemVx_of_inBounds h, fun j => byteAt_putBytes_block s s.i.toNat, hout, (keeps_withMem s _).frame⟩

/-- Settles O42: a register reads its byte up to `X`, and its old value above. -/
theorem blockLoadCopiesMemory : Obligations.BlockLoadCopiesMemory := fun _ s h =>
  ⟨_, exec_ldVxMem_of_inBounds h, fun _ => reg_setBlock_bytesAt_of_le s _, fun _ => reg_setBlock_bytesAt_of_lt s _,
    (keeps_setBlock s _).frame⟩

/-- Settles O43: the load reads the bytes that the store wrote, by what O41 and O42 say of the two. -/
theorem blockRoundTripRestoresRegisters : Obligations.BlockRoundTripRestoresRegisters := by
  intro x s t u hb hstore hmem hi
  obtain ⟨t', hstore', hstored, _, hframe⟩ := blockStoreCopiesRegisters x s hb
  obtain rfl := eq_of_next hstore' hstore
  have hiu : u.i = s.i := Eq.trans hi (hframe .i (by simp))
  obtain ⟨v, hload, hloaded, _⟩ := blockLoadCopiesMemory x u (by rw [hiu]; exact hb)
  refine ⟨v, hload, fun j hj => ?_⟩
  calc v.reg j = u.byteAt (s.i.toNat + j.val) := by rw [hloaded j hj, hiu]
    _ = t'.byteAt (s.i.toNat + j.val) := hmem _
    _ = s.reg j := hstored j hj

end Sys2Proof.Proofs
end

section
/-! Errors of the execute phase (R230, R235, R238): an instruction that raises does so exactly where the table says, and
the raise is all that it does. -/

namespace Sys2Proof.Proofs

open Sys2Proof.Machine

/-- Of an execution that answers by two cases, the second the raise of `e`: where the table of errors names `e` in the
second case and nothing in the first, the execution does what the table says. -/
theorem raises_cases_of_next {i : Instr} {s t : State} {o : Result} {e : FatalError} {p q c : Prop} [Decidable c]
    {u : p → State} (h : o = .next t) (ho : (∃ h : p, o = .next (u h)) ∨ (q ∧ o = .next (s.raise e)))
    (hu : ∀ h, (u h).fault = s.fault) (hr : raises i s = if c then some e else none) (hp : p → ¬ c) (hq : q → c) :
    (raises i s = none ∧ t.fault = s.fault) ∨ ∃ e, raises i s = some e ∧ t = s.raise e := by
  rcases ho with ⟨hok, he⟩ | ⟨hraise, he⟩ <;> obtain rfl := eq_of_next he h
  · exact .inl ⟨hr.trans (if_neg (hp hok)), hu hok⟩
  · exact .inr ⟨e, hr.trans (if_pos (hq hraise)), rfl⟩

/-- An execute phase leaves the latch where the table names no error, and is the raise of the error that it names
(R230, R235). -/
theorem exec_raises_cases {i : Instr} {s t : State} (h : exec i s = .next t) :
    (raises i s = none ∧ t.fault = s.fault) ∨ ∃ e, raises i s = some e ∧ t = s.raise e := by
  cases i with
  | call nnn => exact raises_cases_of_next h (execCall_cases nnn s) (fun _ => rfl) rfl (by omega) (by omega)
  | ret => exact raises_cases_of_next h (execRet_cases s) (fun _ => rfl) rfl (by omega) (by omega)
  | drw x y n =>
    exact raises_cases_of_next h ((execDrw_cases x y n s).imp exists_prop.2 and_assoc.2)
      (fun _ => rfl) rfl (by omega) (by omega)
  | skp x => exact raises_cases_of_next h (execSkp_cases x s) (fun _ => rfl) rfl (by omega) (by omega)
  | sknp x => exact raises_cases_of_next h (execSknp_cases x s) (fun _ => rfl) rfl (by omega) (by omega)
  | ldB x =>
    exact raises_cases_of_next h ((execLdB_cases x s).imp_left exists_prop.2)
      (fun _ => rfl) rfl (by omega) (by omega)
  | ldMemVx x =>
    exact raises_cases_of_next h ((execLdMemVx_cases x s).imp_left exists_prop.2)
      (fun _ => rfl) rfl (by omega) (by omega)
  | ldVxMem x =>
    exact raises_cases_of_next h ((execLdVxMem_cases x s).imp_left exists_prop.2)
      (fun _ => rfl) rfl (by omega) (by omega)
  | _ => exact .inl ⟨rfl, exec_keeps h .fault (by simp [writes])⟩

/-- Settles O48: in a healthy state the latch is empty where the table names no error. -/
theorem execRaisesExactlyTheTable : Obligations.ExecRaisesExactlyTheTable := by
  intro i s hf
  obtain ⟨t, h⟩ := exists_exec_eq_next i s
  refine ⟨t, h, ?_⟩
  rcases exec_raises_cases h with ⟨hr, ht⟩ | ⟨e, hr, rfl⟩
  · rw [ht, hf, hr]
  · rw [hr, State.raise_fault]

/-- Settles O49: a latch set from a healthy state is the raise of its error. -/
theorem errorsArePrecise : Obligations.ErrorsArePrecise := by
  intro i s t e hf h ht
  rcases exec_raises_cases h with ⟨_, hkept⟩ | ⟨e', _, rfl⟩
  · cases ht.symm.trans (hkept.trans hf)
  · obtain rfl := Option.some.inj ht
    rfl

end Sys2Proof.Proofs
end

section
/-! Host operations (R210 to R216, R234, R271): what each does on a healthy machine, the faulted machine that performs
none but `reset`, the read ports, and the invariants of every run. -/

namespace Sys2Proof.Proofs

open Sys2Proof.Machine

/-! ## The faulted machine -/

theorem unlessFaulted_of_fault {s : State} {e : FatalError} (hf : s.fault = some e) (t : State) :
    s.unlessFaulted t = s := by
  rw [State.unlessFaulted, hf]

theorem unlessFaulted_of_healthy {s : State} (hf : s.healthy) (t : State) : s.unlessFaulted t = t := by
  rw [State.unlessFaulted, hf]

/-- A faulted machine performs no operation but `reset` (R125, R234). -/
theorem perform_of_fault {s : State} {e : FatalError} (hf : s.fault = some e) (f : Font) {o : HostOp}
    (ho : o ≠ .reset) : perform f o s = s := by
  cases o with
  | reset => exact absurd rfl ho
  | load _ | tickTimers | setKey _ _ => exact unlessFaulted_of_fault hf _
  | step rnd =>
    rcases stepOp_cases rnd s with ⟨_, hs⟩ | ⟨hnone, _⟩
    · exact hs
    · cases hf.symm.trans hnone

/-- Settles O59: `reset` puts the machine of `initializeOp` in place, whose latch is empty. -/
theorem faultIsStickyUntilReset : Obligations.FaultIsStickyUntilReset :=
  fun f _ _ _ hf => ⟨perform_of_fault hf f, rfl⟩

/-! ## The healthy machine -/

section
variable {s : State} (f : Font) (hf : s.healthy)
include hf

/-- `load`: the image copied, or the error latched, by its length (R211). -/
theorem perform_load_cases (bs : List Byte) :
    (bs.length ≤ 3584 ∧ perform f (.load bs) s = { s with mem := Memory.putBytes s.mem 0x200 bs }) ∨
    (3584 < bs.length ∧ perform f (.load bs) s = s.raise .imageTooLarge) := by
  rcases Nat.lt_or_ge 3584 bs.length with h | h
  · exact .inr ⟨h, (unlessFaulted_of_healthy hf _).trans (if_pos h)⟩
  · exact .inl ⟨h, (unlessFaulted_of_healthy hf _).trans (if_neg (Nat.not_lt.2 h))⟩

/-- `set_key`: one level set, or the error latched, by its index (R212). -/
theorem perform_setKey_cases (index : Int) (pressed : Bool) :
    (∃ k : Fin 16, index = (k.val : Int) ∧
      perform f (.setKey index pressed) s = { s with key := s.key.set k.val pressed }) ∨
    ((index < 0 ∨ index > 15) ∧ perform f (.setKey index pressed) s = s.raise .invalidKeyIndex) := by
  by_cases h : 0 ≤ index ∧ index ≤ 15
  · exact .inl ⟨⟨index.toNat, by omega⟩, (Int.toNat_of_nonneg h.1).symm,
      (unlessFaulted_of_healthy hf _).trans (dif_pos h)⟩
  · exact .inr ⟨by omega, (unlessFaulted_of_healthy hf _).trans (dif_neg h)⟩

/-- `tick_timers`: one decay of each timer (R213). -/
theorem perform_tickTimers : perform f .tickTimers s = { s with dt := decay s.dt, st := decay s.st } :=
  unlessFaulted_of_healthy hf _

/-- `step(rnd)`: the machine of one step with the byte given, the input beside it as it was (R120, R126). -/
theorem exists_perform_step (rnd : Byte) : ∃ t, step { s with rnd := { given := some rnd, drawn := 0 } } = .next t ∧
    perform f (.step rnd) s = { s with machine := t.machine } := by
  obtain ⟨t, ht⟩ := exists_step_eq_next (s := { s with rnd := { given := some rnd, drawn := 0 } }) hf
  rcases stepOp_cases rnd s with ⟨⟨e, he⟩, _⟩ | ⟨_, hop⟩
  · cases hf.symm.trans he
  · exact ⟨t, ht, hop t ht⟩

end

/-! ## The invariants of a run -/

theorem initializeOp_inv (f : Font) : (initializeOp f).Inv :=
  ⟨initializeOp_memoryCanonical f, resetSatisfiesInvariants.2⟩

/-- A step keeps both invariants, by O52 and O53. -/
theorem step_inv {s t : State} (h : step s = .next t) (hs : s.Inv) : t.Inv :=
  ⟨stepKeepsMemoryCanonical s t hs.1 h, stepKeepsCountersInRange s t hs.2 h⟩

theorem perform_inv (f : Font) (o : HostOp) {s : State} (hs : s.Inv) : (perform f o s).Inv := by
  rcases eq_or_ne o .reset with rfl | ho
  · exact initializeOp_inv f
  cases hf : s.fault with
  | some e => rwa [perform_of_fault hf f ho]
  | none =>
    cases o with
    | reset => exact absurd rfl ho
    | load bs =>
      rcases perform_load_cases f hf bs with ⟨hlen, he⟩ | ⟨_, he⟩ <;> rw [he]
      · exact ⟨Memory.wf_putBytes bs s.mem 0x200 hs.1 (by omega), hs.2⟩
      · exact hs
    | step rnd =>
      obtain ⟨t, ht, he⟩ := exists_perform_step f hf rnd
      have hinv : t.Inv := step_inv ht hs
      rwa [he]
    | tickTimers =>
      rw [perform_tickTimers f hf]
      exact hs
    | setKey index pressed =>
      rcases perform_setKey_cases f hf index pressed with ⟨_, _, he⟩ | ⟨_, he⟩ <;> rw [he]
      · exact hs
      · exact hs

theorem performAll_inv (f : Font) (os : List HostOp) {s : State} (hs : s.Inv) : (performAll f os s).Inv := by
  induction os generalizing s with
  | nil => exact hs
  | cons o os ih => exact ih (perform_inv f o hs)

/-- Settles O54: the invariants hold of the first state, and each operation of a run keeps them. -/
theorem everyRunKeepsTheInvariants : Obligations.EveryRunKeepsTheInvariants :=
  ⟨initializeOp_inv, fun f o _ => perform_inv f o, fun f os => performAll_inv f os (initializeOp_inv f)⟩

/-! ## Loading an image -/

/-- Settles O56: byte `k` of an image that fits is at 0x200 + `k`; a longer image is the raise of ImageTooLarge. -/
theorem loadIsAllOrNothing : Obligations.LoadIsAllOrNothing := by
  intro f bs s hf
  rcases perform_load_cases f hf bs with ⟨hlen, he⟩ | ⟨hlen, he⟩ <;> rw [he]
  · exact ⟨fun _ => ⟨fun _ => byteAt_putBytes_add s.mem 0x200, memoryOutside_putBytes s 0x200 bs,
      (keeps_withMem s _).frame⟩, fun hgt => by omega⟩
  · exact ⟨fun hle => by omega, fun _ => ⟨rfl, (keeps_raise s _).frame⟩⟩

/-! ## Setting a key -/

theorem keeps_withKey (s : State) (key : Vector Bool 16) : Keeps [.key] s { s with key := key } := by
  intro p hp; cases p <;> simp_all [SameData]

/-- Settles O57: an index from 0 to 15 is that of one key, and no other index is. -/
theorem setKeySetsOneLevel : Obligations.SetKeySetsOneLevel := by
  intro f index pressed s hf
  rcases perform_setKey_cases f hf index pressed with ⟨k, hk, he⟩ | ⟨hout, he⟩ <;> rw [he]
  · refine ⟨fun k' hk' => ⟨fun j => ?level, (keeps_withKey s _).frame⟩, fun hout => by omega⟩
    case level =>
      obtain rfl : k' = k := Fin.ext (by omega)
      simp only [Fin.getElem_fin, Vector.getElem_set, Fin.ext_iff, eq_comm]
  · exact ⟨fun k hk => by omega, fun _ => ⟨rfl, (keeps_raise s _).frame⟩⟩

/-! ## Ticking the timers -/

theorem toNat_decay (t : Byte) : (decay t).toNat = t.toNat - 1 := by
  rw [decay]
  split
  next h => rw [h]; rfl
  next h => bv_omega

theorem toNat_iterate_decay (k : Nat) (t : Byte) : (decay^[k] t).toNat = t.toNat - k := by
  induction k with
  | zero => rfl
  | succ k ih => rw [Function.iterate_succ_apply', toNat_decay, ih, Nat.sub_sub]

/-- Ticks leave a healthy machine healthy, so each is one more decay of both timers (R213). -/
theorem performAll_replicate_tickTimers (f : Font) (k : Nat) {s : State} (hf : s.healthy) :
    performAll f (List.replicate k .tickTimers) s = { s with dt := decay^[k] s.dt, st := decay^[k] s.st } := by
  induction k generalizing s with
  | zero => rfl
  | succ k ih =>
    rw [List.replicate_succ, performAll, perform_tickTimers f hf]
    exact ih hf

theorem keeps_withTimers (s : State) (a b : Byte) : Keeps [.dt, .st] s { s with dt := a, st := b } := by
  intro p hp; cases p <;> simp_all [SameData]

/-- Settles O58: each timer is its own number of decays, and they are all that the ticks write. -/
theorem timersDecayToZeroAndStay : Obligations.TimersDecayToZeroAndStay := by
  intro f k s hf
  rw [performAll_replicate_tickTimers f k hf]
  exact ⟨toNat_iterate_decay k s.dt, toNat_iterate_decay k s.st, (keeps_withTimers s _ _).frame⟩

/-! ## The read ports -/

theorem faultPort_of_healthy {s : State} (hf : s.healthy) : faultPort s = 0 := by
  rw [faultPort, hf]

theorem faultPort_of_fault {s : State} {e : FatalError} (hf : s.fault = some e) : faultPort s = e.code := by
  rw [faultPort, hf]

/-- Settles O60: entry `p` of the framebuffer port is the pixel `p`, and the fault port shows the code of the latch. -/
theorem portsShowTheState : Obligations.PortsShowTheState := fun _ =>
  ⟨fun _ => Vector.getElem_ofFn _, rfl, faultPort_of_healthy, faultPort_of_fault, faultPort_of_fault,
    faultPort_of_fault, faultPort_of_fault, faultPort_of_fault⟩

end Sys2Proof.Proofs
end
